-- ==== Sys2Proof/Word.lean ====
section
/-! DEFINITION. The bit-vector types of the machine: words, bytes, instruction fields and register indices (rules R6, R10, R51). -/

namespace Sys2Proof

/-- A word: 32 bits (R6), the width of every register, of `pc` and of an instruction. -/
abbrev Word := BitVec 32

/-- A byte of data memory: 8 bits (R6, R30). -/
abbrev Byte := BitVec 8

/-- A register field of an instruction word: 5 bits, 0 to 31 (R51). -/
abbrev RegField := BitVec 5

/-- The immediate field `imm16` of an instruction word: 16 bits (R51, R53). -/
abbrev Imm16 := BitVec 16

/-- The index of a register that exists: 0 to 16 (R10). -/
abbrev RegIdx := Fin 17

end Sys2Proof
end

