-- ==== Sys2Proof/Config.lean ====
section
/-! DEFINITION. The types of the configuration parameters of R4. Their default values stand in Machine/Params.lean, and that of
`OPMAP` in Decode.lean. The spec leaves no value open, so there is no free value here. -/

namespace Sys2Proof

/-- A byte order: the values of `DATA_ENDIAN` (R35) and `FILE_ENDIAN` (R63). -/
inductive Endian where
  /-- The least significant byte at the lowest address. -/
  | little
  /-- The most significant byte at the lowest address. -/
  | big
  deriving DecidableEq, Repr

/-- What a word with an opcode of 22 to 31 does: the values of `UNKNOWN_OPCODE_POLICY` (R57, R75). -/
inductive UnknownOpcodePolicy where
  /-- Raise `DecodeError`: the default. -/
  | fault
  /-- No state change but `pc <- pc + 4`. -/
  | nop
  deriving DecidableEq, Repr

/-- The closed enumeration of the 22 operations (R56, R73). -/
inductive Op where
  | subl | addlRegReg | addlImmReg | imull | shrl
  | movlRegReg | movlDerefReg | movlRegDeref | movlImmReg
  | cmpl
  | je | jl | jle | jge | jbe | jmp
  | call | ret | pushl | popl
  | printr | readr
  deriving DecidableEq, Repr

/-- Every operation, in the order of the table of R56. -/
def allOps : List Op :=
  [.subl, .addlRegReg, .addlImmReg, .imull, .shrl, .movlRegReg, .movlDerefReg, .movlRegDeref, .movlImmReg, .cmpl,
   .je, .jl, .jle, .jge, .jbe, .jmp, .call, .ret, .pushl, .popl, .printr, .readr]

/-- `OPMAP` (R4, R56, R73): opcode number to operation, none where the number selects no instruction. -/
structure OpMap where
  /-- The row of each of the 32 opcode numbers. -/
  table : Vector (Option Op) 32
  deriving DecidableEq, Repr

end Sys2Proof
end

