-- ==== Sys2Proof/Syntax.lean ====
section
/-! DEFINITION. The instruction set as syntax: one constructor per row of the opcode map (R56), carrying exactly the fields the
row's operand form uses (R54), as raw fields; ignored fields are not part of an instruction (R52, R76). -/

namespace Sys2Proof

/-- The 22 instructions of R56, in the order of the table. A register field is the raw 5-bit field: 17 to 31 is an instruction
that decodes (R55) and raises `RegIndexFault` when executed (R13). -/
inductive Instr where
  /-- `subl r1, imm`, form RI (R85). -/
  | subl (r1 : RegField) (imm : Imm16)
  /-- `addl_reg_reg r1, r2`, form RR (R86). -/
  | addlRegReg (r1 r2 : RegField)
  /-- `addl_imm_reg r1, imm`, form RI (R87). -/
  | addlImmReg (r1 : RegField) (imm : Imm16)
  /-- `imull r1, r2`, form RR (R88). -/
  | imull (r1 r2 : RegField)
  /-- `shrl r1`, form R (R89). -/
  | shrl (r1 : RegField)
  /-- `movl_reg_reg r1, r2`, form RR (R95). -/
  | movlRegReg (r1 r2 : RegField)
  /-- `movl_deref_reg r1, r2, imm`, form RRI, `r1` the base (R96). -/
  | movlDerefReg (r1 r2 : RegField) (imm : Imm16)
  /-- `movl_reg_deref r1, r2, imm`, form RRI, `r2` the base (R97). -/
  | movlRegDeref (r1 r2 : RegField) (imm : Imm16)
  /-- `movl_imm_reg r1, imm`, form RI (R98). -/
  | movlImmReg (r1 : RegField) (imm : Imm16)
  /-- `cmpl r1, r2`, form RR (R105). -/
  | cmpl (r1 r2 : RegField)
  /-- `je imm`, form I (R114). -/
  | je (imm : Imm16)
  /-- `jl imm`, form I (R115). -/
  | jl (imm : Imm16)
  /-- `jle imm`, form I (R116). -/
  | jle (imm : Imm16)
  /-- `jge imm`, form I (R117). -/
  | jge (imm : Imm16)
  /-- `jbe imm`, form I (R118). -/
  | jbe (imm : Imm16)
  /-- `jmp imm`, form I (R119). -/
  | jmp (imm : Imm16)
  /-- `call imm`, form I (R125). -/
  | call (imm : Imm16)
  /-- `ret`, form N (R127). -/
  | ret
  /-- `pushl r1`, form R (R128). -/
  | pushl (r1 : RegField)
  /-- `popl r1`, form R (R129). -/
  | popl (r1 : RegField)
  /-- `printr r1`, form R (R138). -/
  | printr (r1 : RegField)
  /-- `readr r1`, form R (R139). -/
  | readr (r1 : RegField)
  deriving DecidableEq, Repr

end Sys2Proof
end

