-- ==== Sys2Proof/WellFormed.lean ====
section
/-! DEFINITION. Which instructions are well formed: every register field the form uses names one of the 17 registers
(R13, R54, R58). -/

namespace Sys2Proof

/-- A used register field must be 0 to 16 (R13, R54). -/
def regFieldOk (r : RegField) : Bool := decide (r.toNat < 17)

/-- The register checks of R72 for each form of R54. -/
def Instr.wf : Instr → Bool
  | .subl r1 _ => regFieldOk r1
  | .addlRegReg r1 r2 => regFieldOk r1 && regFieldOk r2
  | .addlImmReg r1 _ => regFieldOk r1
  | .imull r1 r2 => regFieldOk r1 && regFieldOk r2
  | .shrl r1 => regFieldOk r1
  | .movlRegReg r1 r2 => regFieldOk r1 && regFieldOk r2
  | .movlDerefReg r1 r2 _ => regFieldOk r1 && regFieldOk r2
  | .movlRegDeref r1 r2 _ => regFieldOk r1 && regFieldOk r2
  | .movlImmReg r1 _ => regFieldOk r1
  | .cmpl r1 r2 => regFieldOk r1 && regFieldOk r2
  | .je _ => true
  | .jl _ => true
  | .jle _ => true
  | .jge _ => true
  | .jbe _ => true
  | .jmp _ => true
  | .call _ => true
  | .ret => true
  | .pushl r1 => regFieldOk r1
  | .popl r1 => regFieldOk r1
  | .printr r1 => regFieldOk r1
  | .readr r1 => regFieldOk r1

/-- The proposition that the checks pass. -/
abbrev Instr.WellFormed (i : Instr) : Prop := i.wf = true

end Sys2Proof
end

