-- ==== Sys2Proof/Decode.lean ====
section
/-! DEFINITION. Decoding and encoding of instruction words (R50 to R60): the four fields of a word, the opcode map, the decoder,
which is total and rejects an unknown opcode by name, and the encoder, which writes the canonical word. -/

namespace Sys2Proof

/-! ### The one format (R51) -/

/-- `opcode = bits [31:27]` (R51). -/
def opField (w : Word) : BitVec 5 := w.extractLsb' 27 5

/-- `first_register = bits [26:22]` (R51). -/
def r1Field (w : Word) : RegField := w.extractLsb' 22 5

/-- `second_register = bits [21:17]` (R51). -/
def r2Field (w : Word) : RegField := w.extractLsb' 17 5

/-- `immediate = bits [15:0]` (R51). -/
def immField (w : Word) : Imm16 := w.extractLsb' 0 16

/-- `sext_32` (R7, R53): the sign extension every use of the immediate goes through. -/
def sext32 (v : Imm16) : Word := v.signExtend 32

/-- The four fields of R51, which every word has (R55). Bit 16 belongs to none of them (R52). -/
structure Fields where
  op : BitVec 5
  r1 : RegField
  r2 : RegField
  imm16 : Imm16
  deriving DecidableEq, Repr

/-- The source's `decode` contract: any word has its four fields (R51, R55). -/
def decodeFields (w : Word) : Fields :=
  { op := opField w, r1 := r1Field w, r2 := r2Field w, imm16 := immField w }

/-- `encode(op, r1, r2, imm)` of R60: the fields in their places and 0 in bit 16 (R52). -/
def encodeFields (f : Fields) : Word := f.op ++ f.r1 ++ f.r2 ++ 0#1 ++ f.imm16

/-! ### The opcode map (R56) -/

/-- The table of R56, the default of `OPMAP`: 0 to 21 in the source table's order (decision D1), no instruction at 22 to 31. -/
def defaultOpMap : OpMap where
  table :=
    #v[some .subl, some .addlRegReg, some .addlImmReg, some .imull, some .shrl,
       some .movlRegReg, some .movlDerefReg, some .movlRegDeref, some .movlImmReg,
       some .cmpl,
       some .je, some .jl, some .jle, some .jge, some .jbe, some .jmp,
       some .call, some .ret, some .pushl, some .popl,
       some .printr, some .readr,
       none, none, none, none, none, none, none, none, none, none]

/-- The opcode map of a machine is an assignment of numbers to the 22 operations: each stands at exactly one number (R56; log entry 13). -/
def OpMap.wf (m : OpMap) : Bool := allOps.all fun o => m.table.toList.count (some o) == 1

/-- `OPMAP[op]`: dispatch on the opcode number alone (R70, R73), none for an unknown opcode (R57). -/
def opOf (m : OpMap) (n : BitVec 5) : Option Op := m.table[n.toNat]'n.isLt

/-- The opcode number of an operation under an opcode map (R56). -/
def opNumber (m : OpMap) (o : Op) : BitVec 5 := BitVec.ofNat 5 (m.table.toList.idxOf (some o))

/-- The operation of an instruction. -/
def opOfInstr : Instr → Op
  | .subl _ _ => .subl
  | .addlRegReg _ _ => .addlRegReg
  | .addlImmReg _ _ => .addlImmReg
  | .imull _ _ => .imull
  | .shrl _ => .shrl
  | .movlRegReg _ _ => .movlRegReg
  | .movlDerefReg _ _ _ => .movlDerefReg
  | .movlRegDeref _ _ _ => .movlRegDeref
  | .movlImmReg _ _ => .movlImmReg
  | .cmpl _ _ => .cmpl
  | .je _ => .je
  | .jl _ => .jl
  | .jle _ => .jle
  | .jge _ => .jge
  | .jbe _ => .jbe
  | .jmp _ => .jmp
  | .call _ => .call
  | .ret => .ret
  | .pushl _ => .pushl
  | .popl _ => .popl
  | .printr _ => .printr
  | .readr _ => .readr

/-! ### Decoding -/

/-- The instruction an operation makes of a word's fields: the fields its form uses, the others dropped (R54, R76). -/
def instrOfFields (o : Op) (f : Fields) : Instr :=
  match o with
  | .subl => .subl f.r1 f.imm16
  | .addlRegReg => .addlRegReg f.r1 f.r2
  | .addlImmReg => .addlImmReg f.r1 f.imm16
  | .imull => .imull f.r1 f.r2
  | .shrl => .shrl f.r1
  | .movlRegReg => .movlRegReg f.r1 f.r2
  | .movlDerefReg => .movlDerefReg f.r1 f.r2 f.imm16
  | .movlRegDeref => .movlRegDeref f.r1 f.r2 f.imm16
  | .movlImmReg => .movlImmReg f.r1 f.imm16
  | .cmpl => .cmpl f.r1 f.r2
  | .je => .je f.imm16
  | .jl => .jl f.imm16
  | .jle => .jle f.imm16
  | .jge => .jge f.imm16
  | .jbe => .jbe f.imm16
  | .jmp => .jmp f.imm16
  | .call => .call f.imm16
  | .ret => .ret
  | .pushl => .pushl f.r1
  | .popl => .popl f.r1
  | .printr => .printr f.r1
  | .readr => .readr f.r1

/-- What the decoder answers. -/
inductive Decoded where
  /-- A word of the opcode map. -/
  | instr (i : Instr)
  /-- The rejection, by name: a word whose opcode field is in no row of the map (R57); what it does when executed is R75. -/
  | unknownOpcode (op : BitVec 5)
  deriving DecidableEq, Repr

/-- The decoder under an opcode map: total on every word (R55); only the opcode number selects (R73). -/
def decode (m : OpMap) (w : Word) : Decoded :=
  match opOf m (opField w) with
  | some o => .instr (instrOfFields o (decodeFields w))
  | none => .unknownOpcode (opField w)

/-! ### Encoding -/

/-- The canonical fields of an instruction under an opcode map: 0 in every ignored field (R59). -/
def fieldsOfInstr (m : OpMap) (i : Instr) : Fields :=
  match i with
  | .subl r1 imm => ⟨opNumber m .subl, r1, 0, imm⟩
  | .addlRegReg r1 r2 => ⟨opNumber m .addlRegReg, r1, r2, 0⟩
  | .addlImmReg r1 imm => ⟨opNumber m .addlImmReg, r1, 0, imm⟩
  | .imull r1 r2 => ⟨opNumber m .imull, r1, r2, 0⟩
  | .shrl r1 => ⟨opNumber m .shrl, r1, 0, 0⟩
  | .movlRegReg r1 r2 => ⟨opNumber m .movlRegReg, r1, r2, 0⟩
  | .movlDerefReg r1 r2 imm => ⟨opNumber m .movlDerefReg, r1, r2, imm⟩
  | .movlRegDeref r1 r2 imm => ⟨opNumber m .movlRegDeref, r1, r2, imm⟩
  | .movlImmReg r1 imm => ⟨opNumber m .movlImmReg, r1, 0, imm⟩
  | .cmpl r1 r2 => ⟨opNumber m .cmpl, r1, r2, 0⟩
  | .je imm => ⟨opNumber m .je, 0, 0, imm⟩
  | .jl imm => ⟨opNumber m .jl, 0, 0, imm⟩
  | .jle imm => ⟨opNumber m .jle, 0, 0, imm⟩
  | .jge imm => ⟨opNumber m .jge, 0, 0, imm⟩
  | .jbe imm => ⟨opNumber m .jbe, 0, 0, imm⟩
  | .jmp imm => ⟨opNumber m .jmp, 0, 0, imm⟩
  | .call imm => ⟨opNumber m .call, 0, 0, imm⟩
  | .ret => ⟨opNumber m .ret, 0, 0, 0⟩
  | .pushl r1 => ⟨opNumber m .pushl, r1, 0, 0⟩
  | .popl r1 => ⟨opNumber m .popl, r1, 0, 0⟩
  | .printr r1 => ⟨opNumber m .printr, r1, 0, 0⟩
  | .readr r1 => ⟨opNumber m .readr, r1, 0, 0⟩

/-- The encoder under an opcode map: the canonical word of an instruction (R59, R60). -/
def encode (m : OpMap) (i : Instr) : Word := encodeFields (fieldsOfInstr m i)

/-- The host's probe: the instruction the decoder reads, under the default opcode map, from the word whose low `nbits` bits are `w`, none where it rejects. The
core receives words, so there is no byte order to lay out (R63). -/
def decodeTableWord (nbits w : Nat) : Option Instr :=
  match decode defaultOpMap (BitVec.ofNat 32 (w % 2 ^ nbits)) with
  | .instr i => some i
  | .unknownOpcode _ => none

end Sys2Proof
end

