-- ==== Sys2Proof/Machine/Params.lean ====
section
/-! DEFINITION. The constants of R4 and the default values of its configuration parameters but `OPMAP` (`defaultOpMap` in
Decode.lean). -/

namespace Sys2Proof.Machine

/-- `MEM_SIZE` (R4): bytes of data memory. -/
def memSize : Nat := 1024

/-- `SP` (R4, R15): the index of the stack pointer. -/
def spIdx : RegIdx := 6

/-- `FL` (R4, R16): the index of the flags register. -/
def flagsIdx : RegIdx := 16

/-- `INIT_SP` (R4, R15): the reset value of the stack pointer, the constant `ret` compares with. -/
def initSp : Word := 1024

/-- `RESET_PC` (R4, R172). -/
def resetPc : Word := 0

/-- The bound on `N_INSTR`, 2^30 - 1 (R4, R173). -/
def maxInstr : Nat := 1073741823

/-- The default of `UNKNOWN_OPCODE_POLICY` (R4). -/
def defaultUnknownPolicy : UnknownOpcodePolicy := .fault

/-- The default of `DATA_ENDIAN` (R4). -/
def defaultDataEndian : Endian := .little

/-- The default of `FILE_ENDIAN` (R4), used outside the core only (R63). -/
def defaultFileEndian : Endian := .little

end Sys2Proof.Machine
end

