-- ==== Sys2Proof/Machine/State.lean ====
section
/-! DEFINITION. The state of the machine as plain data, with the reasons a step can stop and the state after reset (10_state.md). -/

namespace Sys2Proof.Machine

open Sys2Proof

/-- Data memory as its listed bytes: addresses strictly rising, no entry equal to what an unlisted address reads as. -/
abbrev Memory := List Host.Cell

/-- What an unlisted address of data memory reads as: the reset contents, 0 (R26, R30). -/
def unlistedByte : Byte := 0

/-- `run_state` (R20). -/
inductive RunState where
  /-- The machine takes steps. -/
  | running
  /-- A `ret` executed with `x[6] = 1024`. -/
  | haltedRet
  /-- `pc` reached `4 * N_INSTR`. -/
  | haltedEnd
  /-- A fault was raised. -/
  | faulted
  deriving DecidableEq, Repr

/-- `fault_cause` (R21, R145); its 3-bit code is `FaultCause.code`. -/
inductive FaultCause where
  /-- No fault so far. -/
  | none
  /-- `FetchFault` (R146). -/
  | fetchFault
  /-- `DecodeError` (R147). -/
  | decodeError
  /-- `RegIndexFault` (R148). -/
  | regIndexFault
  /-- `MemoryFault` (R149). -/
  | memoryFault
  deriving DecidableEq, Repr

/-- The whole state (10_state.md, section 1), and the parameters of the run (R4), which no step writes. -/
structure State where
  /-- The register file `x[0]` to `x[16]` (R10); `x[6]` is the stack pointer (R15), `x[16]` the flags register (R16). -/
  regs : Vector Word 17
  /-- The program counter (R19). -/
  pc : Word
  /-- Data memory `MEM` (R30). -/
  mem : Memory
  /-- `run_state` (R20). -/
  runState : RunState
  /-- `fault_cause` (R21). -/
  faultCause : FaultCause
  /-- `fault_pc` (R22). -/
  faultPc : Word
  /-- `fault_info` (R22). -/
  faultInfo : Word
  /-- `OUT`, oldest first (R23). -/
  out : List Word
  /-- `in_pos` (R24). -/
  inPos : Nat
  /-- Parameter `IMEM`, the loaded program; `N_INSTR` is its length (R4, R31). -/
  imem : List Word
  /-- Parameter `IN`, as far as the host has supplied it (R4, R24); `InputSeq` is the whole of it, finite or infinite. -/
  input : List Word
  /-- Parameter `OPMAP` (R4, R56). -/
  opMap : OpMap
  /-- Parameter `UNKNOWN_OPCODE_POLICY` (R4, R75). -/
  unknownPolicy : UnknownOpcodePolicy
  /-- Parameter `DATA_ENDIAN` (R4, R35). -/
  dataEndian : Endian
  deriving DecidableEq, Repr

/-- The reasons for which the model stops. The four faults of the spec are next states (`State.raise`), not reasons of this type. -/
inductive Fault where
  /-- Answered by `regIndexFault` when `exec` is called on an ill-formed instruction in a state with no instruction word at `pc`, so
  that `fault_info` (R148) has no word to record. A step always has that word, so no step answers this. Safe: the model stops. -/
  | noInstructionWord
  deriving DecidableEq, Repr

/-- The reasons for which the model gives no meaning. -/
inductive Refusal where
  /-- An instruction not given its meaning yet, by its mnemonic. No arm of `exec` answers it in this model. Safe: the model stops. -/
  | notModelled (mnemonic : String)
  /-- Answered by `step` when the program has more than 2^30 - 1 instructions: the spec's own treatment of such a program is to
  refuse it (93_implementation_defined.md U13; R4, R173). Safe: the model stops. -/
  | programTooLong
  deriving DecidableEq, Repr

/-- The machine right after reset (R26, R27, R170), with no program loaded and no input supplied; the configuration parameters have
their defaults (R4). -/
def State.reset : State where
  regs := (Vector.replicate 17 0).set 6 initSp
  pc := resetPc
  mem := []
  runState := .running
  faultCause := .none
  faultPc := 0
  faultInfo := 0
  out := []
  inPos := 0
  imem := []
  input := []
  opMap := defaultOpMap
  unknownPolicy := defaultUnknownPolicy
  dataEndian := defaultDataEndian

/-- What a step or an instruction answers. -/
abbrev StepResult := Host.Outcome State Fault Refusal

end Sys2Proof.Machine
end

