-- ==== Sys2Proof/Machine/Ops.lean ====
section
/-! DEFINITION. The named operations over registers, memory, the program counter, the fetch, the faults, the halts and the two
ports. Each rule of an instruction is written over these. -/

namespace Sys2Proof.Machine

open Sys2Proof

/-! ### Bytes of data memory -/

/-- One byte of data memory (R30): the listed value, else the reset contents. -/
def Memory.readByte : Memory → Nat → Byte
  | [], _ => unlistedByte
  | c :: rest, a => if c.1 = a then c.2 else Memory.readByte rest a

/-- The cells at other addresses. -/
def Memory.erase (m : Memory) (a : Nat) : Memory := m.filter fun c => c.1 != a

/-- A cell put before the first cell of a higher address. -/
def Memory.putCell : Memory → Host.Cell → Memory
  | [], c => [c]
  | d :: rest, c => if c.1 < d.1 then c :: d :: rest else d :: Memory.putCell rest c

/-- `MEM[a] <- v` for one byte; writing what an unlisted address reads as leaves no entry. -/
def Memory.writeByte (m : Memory) (a : Nat) (v : Byte) : Memory :=
  if v = unlistedByte then m.erase a else (m.erase a).putCell (a, v)

/-- The canonical form: addresses strictly rising and inside `MEM`, no entry equal to what an unlisted address reads as. -/
abbrev Memory.wf (m : Memory) : Prop :=
  m.Pairwise (fun c d => c.1 < d.1) ∧ ∀ c ∈ m, c.1 < memSize ∧ c.2 ≠ unlistedByte

/-! ### Words of data memory -/

/-- The byte at offset `k` of a stored word (R34). -/
def byteOfWord (e : Endian) (v : Word) (k : Nat) : Byte :=
  match e with
  | .little => v.extractLsb' (8 * k) 8
  | .big => v.extractLsb' (8 * (3 - k)) 8

/-- The word made of four bytes in address order (R33). -/
def wordOfBytes (e : Endian) (b0 b1 b2 b3 : Byte) : Word :=
  match e with
  | .little => b3 ++ b2 ++ b1 ++ b0
  | .big => b0 ++ b1 ++ b2 ++ b3

/-- The word at the four addresses from `a` (R33). -/
def Memory.readWord (m : Memory) (e : Endian) (a : Nat) : Word :=
  wordOfBytes e (m.readByte a) (m.readByte (a + 1)) (m.readByte (a + 2)) (m.readByte (a + 3))

/-- The four bytes from `a` written with a word (R34). -/
def Memory.writeWord (m : Memory) (e : Endian) (a : Nat) (v : Word) : Memory :=
  (((m.writeByte a (byteOfWord e v 0)).writeByte (a + 1) (byteOfWord e v 1)).writeByte (a + 2)
    (byteOfWord e v 2)).writeByte (a + 3) (byteOfWord e v 3)

/-- The legality of a data access: `u(addr) <= 1020` (R32). -/
def memLegal (addr : Word) : Bool := decide (addr.toNat ≤ memSize - 4)

/-! ### Registers and the program counter -/

/-- `x[i]` (R7, R10). -/
def State.reg (s : State) (i : RegIdx) : Word := s.regs[i]

/-- `x[i] <- v` (R7, R12): every register is written like any other. -/
def State.setReg (s : State) (i : RegIdx) (v : Word) : State := { s with regs := s.regs.set i v }

/-- `x[6]` (R15). -/
def State.sp (s : State) : Word := s.reg spIdx

/-- `x[16]` (R16). -/
def State.flags (s : State) : Word := s.reg flagsIdx

/-- Data memory replaced. -/
def State.setMem (s : State) (m : Memory) : State := { s with mem := m }

/-- `pc <- t`. -/
def State.setPc (s : State) (t : Word) : State := { s with pc := t }

/-- The default transition `pc <- pc + 4` (R74). -/
def State.advance (s : State) : State := s.setPc (s.pc + 4)

/-- `pc <- pc + imm`, from the instruction's own address (R113, R125). -/
def State.jump (s : State) (imm : Imm16) : State := s.setPc (s.pc + sext32 imm)

/-! ### Faults and halts -/

/-- `code(F)` (R145). -/
def FaultCause.code : FaultCause → BitVec 3
  | .none => 0
  | .fetchFault => 1
  | .decodeError => 2
  | .regIndexFault => 3
  | .memoryFault => 4

/-- `raise F(info)`, fault entry (R150): the shared operation of every fault. There is no handler, and no return from a fault (R153). -/
def State.raise (s : State) (c : FaultCause) (info : Word) : State :=
  { s with runState := .faulted, faultCause := c, faultPc := s.pc, faultInfo := info }

/-- `halt(reason)` (R77): the run state changes and nothing else. -/
def State.halt (s : State) (r : RunState) : State := { s with runState := r }

/-- A machine in a terminal state takes no step (R20, R77): its state stays as it is (log entry 1). -/
def State.stopped (s : State) : StepResult := .next s

/-! ### Fetch -/

/-- The word `IMEM[pc / 4]`, when there is one (R71). -/
def State.instrWord (s : State) : Option Word := s.imem[s.pc.toNat / 4]?

/-- What the fetch finds. -/
inductive Fetched where
  /-- `pc = 4 * N_INSTR`: the end of the program (R77). -/
  | endOfProgram
  /-- `pc` is not a multiple of 4, or is greater than `4 * N_INSTR` (R71). -/
  | badPc
  /-- The word at `pc`. -/
  | word (w : Word)
  deriving DecidableEq, Repr

/-- The fetch (R70, R71), comparing `pc` as an unsigned number. `IMEM` has no word at an aligned `pc` other than `4 * N_INSTR` exactly
when `pc` is greater. -/
def fetch (s : State) : Fetched :=
  if s.pc.toNat = 4 * s.imem.length then .endOfProgram
  else if s.pc.toNat % 4 ≠ 0 then .badPc
  else
    match s.instrWord with
    | some w => .word w
    | none => .badPc

/-- `raise FetchFault(pc)` (R71, R146). -/
def fetchFault (s : State) : StepResult := .next (s.raise .fetchFault s.pc)

/-- `unknown(word)` (R75). -/
def unknownOpcode (w : Word) (s : State) : StepResult :=
  match s.unknownPolicy with
  | .fault => .next (s.raise .decodeError w)
  | .nop => .next s.advance

/-- `raise RegIndexFault(word)` with the whole word being executed (R72, R148). -/
def regIndexFault (s : State) : StepResult :=
  match s.instrWord with
  | some w => .next (s.raise .regIndexFault w)
  | none => .fault .noInstructionWord

/-! ### Data accesses -/

/-- `MemRead(addr, 4)` and what follows it: on an illegal address `raise MemoryFault(addr)` (R32, R33, R149). -/
def loadWord (addr : Word) (s : State) (k : Word → StepResult) : StepResult :=
  if memLegal addr then k (s.mem.readWord s.dataEndian addr.toNat)
  else .next (s.raise .memoryFault addr)

/-- `MemWrite(addr, 4, v)` and what follows it: on an illegal address `raise MemoryFault(addr)` (R32, R34, R149). -/
def storeWord (addr v : Word) (s : State) (k : State → StepResult) : StepResult :=
  if memLegal addr then k (s.setMem (s.mem.writeWord s.dataEndian addr.toNat v))
  else .next (s.raise .memoryFault addr)

/-! ### Ports -/

/-- `Out(v)` (R7, R138): the output stream grows by one value. -/
def State.emit (s : State) (v : Word) : State := { s with out := s.out ++ [v] }

/-- The value the next `readr` takes, when the host has supplied it (R24). -/
def State.nextInput (s : State) : Option Word := s.input[s.inPos]?

/-- `in_pos <- in_pos + 1` (R139). -/
def State.consume (s : State) : State := { s with inPos := s.inPos + 1 }

/-- One more value of `IN` stands at the input port (R5, R137). The host's move is the guarded `State.supplyInput` (R177). -/
def State.deliver (s : State) (v : Word) : State := { s with input := s.input ++ [v] }

/-- The wait for input: the state stays `RUNNING` and nothing changes (R80, R140; log entry 2). -/
def State.waiting (s : State) : StepResult := .next s

end Sys2Proof.Machine
end

