-- ==== Sys2Proof/Machine/Operands.lean ====
section
/-! DEFINITION. The operand forms (R54, R94): register fields with the dispatch check on them, the effective address, and the address a
push or a call stores to. -/

namespace Sys2Proof.Machine

open Sys2Proof

/-- A used `r1` field: checked before any effect, then a register (R13, R72). -/
def useReg (r : RegField) (s : State) (k : RegIdx → StepResult) : StepResult :=
  if h : r.toNat < 17 then k ⟨r.toNat, h⟩ else regIndexFault s

/-- Two used register fields, `r1` checked first (R72). -/
def useRegs (r1 r2 : RegField) (s : State) (k : RegIdx → RegIdx → StepResult) : StepResult :=
  useReg r1 s fun a => useReg r2 s fun b => k a b

/-- The one addressing mode: base register plus sign-extended immediate, modulo 2^32 (R94). -/
def effAddr (s : State) (base : RegIdx) (imm : Imm16) : Word := s.reg base + sext32 imm

/-- The address `pushl` and `call` store to: `x[6] - 4`, modulo 2^32 (R125, R128). -/
def pushAddr (s : State) : Word := s.sp - 4

end Sys2Proof.Machine
end

