-- ==== Sys2Proof/Machine/Arithmetic.lean ====
section
/-! DEFINITION. The arithmetic family (41_arithmetic.md): everything is modulo 2^32 and no flag is touched (R84). -/

namespace Sys2Proof.Machine

open Sys2Proof

/-- `subl` (R85). -/
def execSubl (r1 : RegField) (imm : Imm16) (s : State) : StepResult :=
  useReg r1 s fun a => .next (s.setReg a (s.reg a - sext32 imm)).advance

/-- `addl_reg_reg` (R86). -/
def execAddlRegReg (r1 r2 : RegField) (s : State) : StepResult :=
  useRegs r1 r2 s fun a b => .next (s.setReg b (s.reg b + s.reg a)).advance

/-- `addl_imm_reg` (R87). -/
def execAddlImmReg (r1 : RegField) (imm : Imm16) (s : State) : StepResult :=
  useReg r1 s fun a => .next (s.setReg a (s.reg a + sext32 imm)).advance

/-- `imull` (R88): the low 32 bits of the product. -/
def execImull (r1 r2 : RegField) (s : State) : StepResult :=
  useRegs r1 r2 s fun a b => .next (s.setReg b (s.reg b * s.reg a)).advance

/-- `shrl` (R89): a logical shift by one. -/
def execShrl (r1 : RegField) (s : State) : StepResult :=
  useReg r1 s fun a => .next (s.setReg a (s.reg a >>> 1)).advance

end Sys2Proof.Machine
end

