-- ==== Sys2Proof/Machine/Flags.lean ====
section
/-! DEFINITION. The flags: their places in `x[16]` (R16), their computation by `cmpl` (R105), and the branch conditions (R113 to R121). -/

namespace Sys2Proof.Machine

open Sys2Proof

/-- CF, bit 0 (R16). -/
def maskCF : Word := 0x00000001

/-- ZF, bit 6 (R16). -/
def maskZF : Word := 0x00000040

/-- SF, bit 7 (R16). -/
def maskSF : Word := 0x00000080

/-- OF, bit 11 (R16). -/
def maskOF : Word := 0x00000800

/-- A flag's mask when its condition holds, else no bit. -/
def flagIf (c : Bool) (mask : Word) : Word := if c then mask else 0

/-- `wide = sext_64(b) - sext_64(a)`, an exact integer (R105). -/
def wideDiff (a b : Word) : Int := b.toInt - a.toInt

/-- `d = wide mod 2^32`, the truncated difference (R105). -/
def truncDiff (a b : Word) : Word := BitVec.ofInt 32 (wideDiff a b)

/-- The value `cmpl` gives `x[16]`, from zero, for first operand `a` and second operand `b` (R105). -/
def compareFlags (a b : Word) : Word :=
  flagIf (decide (a.toNat > b.toNat)) maskCF
    ||| flagIf (decide (truncDiff a b = 0)) maskZF
    ||| flagIf (truncDiff a b).msb maskSF
    ||| flagIf (decide (wideDiff a b < -2147483648 ∨ wideDiff a b > 2147483647)) maskOF

/-- `CF = x[16][0]` (R121). -/
def flagCF (f : Word) : Bool := f.getLsbD 0

/-- `ZF = x[16][6]` (R121). -/
def flagZF (f : Word) : Bool := f.getLsbD 6

/-- `SF = x[16][7]` (R121). -/
def flagSF (f : Word) : Bool := f.getLsbD 7

/-- `OF = x[16][11]` (R121). -/
def flagOF (f : Word) : Bool := f.getLsbD 11

/-- The condition of `je` (R114). -/
def condE (f : Word) : Bool := flagZF f

/-- The condition of `jl` (R115). -/
def condL (f : Word) : Bool := xor (flagSF f) (flagOF f)

/-- The condition of `jle` (R116). -/
def condLE (f : Word) : Bool := xor (flagSF f) (flagOF f) || flagZF f

/-- The condition of `jge` (R117). -/
def condGE (f : Word) : Bool := !(xor (flagSF f) (flagOF f))

/-- The condition of `jbe` (R118). -/
def condBE (f : Word) : Bool := flagCF f || flagZF f

end Sys2Proof.Machine
end

