-- ==== Sys2Proof/Machine/Branches.lean ====
section
/-! DEFINITION. The branches (44_branches.md): a condition on `x[16]` and a displacement from the branch's own address (R113). -/

namespace Sys2Proof.Machine

open Sys2Proof

/-- Branch resolution (R113): taken, `pc <- pc + imm`; not taken, `pc <- pc + 4`. The target is not checked (R120). -/
def branchIf (c : Bool) (imm : Imm16) (s : State) : StepResult :=
  .next (if c then s.jump imm else s.advance)

/-- `je` (R114). -/
def execJe (imm : Imm16) (s : State) : StepResult := branchIf (condE s.flags) imm s

/-- `jl` (R115). -/
def execJl (imm : Imm16) (s : State) : StepResult := branchIf (condL s.flags) imm s

/-- `jle` (R116). -/
def execJle (imm : Imm16) (s : State) : StepResult := branchIf (condLE s.flags) imm s

/-- `jge` (R117). -/
def execJge (imm : Imm16) (s : State) : StepResult := branchIf (condGE s.flags) imm s

/-- `jbe` (R118). -/
def execJbe (imm : Imm16) (s : State) : StepResult := branchIf (condBE s.flags) imm s

/-- `jmp` (R119). -/
def execJmp (imm : Imm16) (s : State) : StepResult := branchIf true imm s

end Sys2Proof.Machine
end

