-- ==== Sys2Proof/Machine/Compare.lean ====
section
/-! DEFINITION. The comparison family (43_compare.md): `cmpl`, the one instruction that writes the flags as a side effect (R17). -/

namespace Sys2Proof.Machine

open Sys2Proof

/-- `cmpl` (R105): both operands are read before `x[16]` is replaced. -/
def execCmpl (r1 r2 : RegField) (s : State) : StepResult :=
  useRegs r1 r2 s fun a b => .next (s.setReg flagsIdx (compareFlags (s.reg a) (s.reg b))).advance

end Sys2Proof.Machine
end

