-- ==== Sys2Proof/Machine/Console.lean ====
section
/-! DEFINITION. The console instructions (46_io.md): the output port and the input port. -/

namespace Sys2Proof.Machine

open Sys2Proof

/-- `printr` (R138). -/
def execPrintr (r1 : RegField) (s : State) : StepResult :=
  useReg r1 s fun a => .next (s.emit (s.reg a)).advance

/-- `readr` (R139), waiting while no value is available (R140). The register check comes before the wait (R152). -/
def execReadr (r1 : RegField) (s : State) : StepResult :=
  useReg r1 s fun a =>
    match s.nextInput with
    | some v => .next (s.setReg a v).consume.advance
    | none => s.waiting

end Sys2Proof.Machine
end

