-- ==== Sys2Proof/Machine/DataMovement.lean ====
section
/-! DEFINITION. The data movement family (42_data_movement.md). -/

namespace Sys2Proof.Machine

open Sys2Proof

/-- `movl_reg_reg` (R95). -/
def execMovlRegReg (r1 r2 : RegField) (s : State) : StepResult :=
  useRegs r1 r2 s fun a b => .next (s.setReg b (s.reg a)).advance

/-- `movl_deref_reg` (R96): `r1` is the base, `r2` the destination. -/
def execMovlDerefReg (r1 r2 : RegField) (imm : Imm16) (s : State) : StepResult :=
  useRegs r1 r2 s fun a b =>
    loadWord (effAddr s a imm) s fun v => .next (s.setReg b v).advance

/-- `movl_reg_deref` (R97): `r1` is the data, `r2` the base. -/
def execMovlRegDeref (r1 r2 : RegField) (imm : Imm16) (s : State) : StepResult :=
  useRegs r1 r2 s fun a b =>
    storeWord (effAddr s b imm) (s.reg a) s fun s' => .next s'.advance

/-- `movl_imm_reg` (R98). -/
def execMovlImmReg (r1 : RegField) (imm : Imm16) (s : State) : StepResult :=
  useReg r1 s fun a => .next (s.setReg a (sext32 imm)).advance

end Sys2Proof.Machine
end

