-- ==== Sys2Proof/Machine/Stack.lean ====
section
/-! DEFINITION. Call, return, push and pop (45_call_return_stack.md) on the full-descending stack of R126. The access that can fault
comes before any state write (R151). -/

namespace Sys2Proof.Machine

open Sys2Proof

/-- `call` (R125): the return address is `pc + 4`, the target `pc + imm`. -/
def execCall (imm : Imm16) (s : State) : StepResult :=
  storeWord (pushAddr s) (s.pc + 4) s fun s' => .next ((s'.setReg spIdx (pushAddr s)).jump imm)

/-- `ret` (R127): the top-level halt when `x[6] = INIT_SP`, else a pop into `pc`. -/
def execRet (s : State) : StepResult :=
  if s.sp = initSp then .next (s.halt .haltedRet)
  else loadWord s.sp s fun t => .next ((s.setReg spIdx (s.sp + 4)).setPc t)

/-- `pushl` (R128): the register is read after the decrement, so `pushl r6` stores the new stack pointer. -/
def execPushl (r1 : RegField) (s : State) : StepResult :=
  useReg r1 s fun a =>
    storeWord (pushAddr s) (if a = spIdx then pushAddr s else s.reg a) s fun s' =>
      .next (s'.setReg spIdx (pushAddr s)).advance

/-- `popl` (R129): the increment applies after the register write, so `popl r6` ends at the loaded word plus 4. -/
def execPopl (r1 : RegField) (s : State) : StepResult :=
  useReg r1 s fun a =>
    loadWord s.sp s fun v => .next ((s.setReg a v).setReg spIdx ((s.setReg a v).sp + 4)).advance

end Sys2Proof.Machine
end

