-- ==== Sys2Proof/Machine/Dispatch.lean ====
section
/-! DEFINITION. The dispatch of R73: one arm per instruction of the opcode map, each a direct call of its meaning. -/

namespace Sys2Proof.Machine

open Sys2Proof

/-- Execute one instruction (R73). -/
def exec (i : Instr) (s : State) : Host.Outcome State Fault Refusal :=
  match i with
  | .subl r1 imm => Sys2Proof.Machine.execSubl r1 imm s
  | .addlRegReg r1 r2 => Sys2Proof.Machine.execAddlRegReg r1 r2 s
  | .addlImmReg r1 imm => Sys2Proof.Machine.execAddlImmReg r1 imm s
  | .imull r1 r2 => Sys2Proof.Machine.execImull r1 r2 s
  | .shrl r1 => Sys2Proof.Machine.execShrl r1 s
  | .movlRegReg r1 r2 => Sys2Proof.Machine.execMovlRegReg r1 r2 s
  | .movlDerefReg r1 r2 imm => Sys2Proof.Machine.execMovlDerefReg r1 r2 imm s
  | .movlRegDeref r1 r2 imm => Sys2Proof.Machine.execMovlRegDeref r1 r2 imm s
  | .movlImmReg r1 imm => Sys2Proof.Machine.execMovlImmReg r1 imm s
  | .cmpl r1 r2 => Sys2Proof.Machine.execCmpl r1 r2 s
  | .je imm => Sys2Proof.Machine.execJe imm s
  | .jl imm => Sys2Proof.Machine.execJl imm s
  | .jle imm => Sys2Proof.Machine.execJle imm s
  | .jge imm => Sys2Proof.Machine.execJge imm s
  | .jbe imm => Sys2Proof.Machine.execJbe imm s
  | .jmp imm => Sys2Proof.Machine.execJmp imm s
  | .call imm => Sys2Proof.Machine.execCall imm s
  | .ret => Sys2Proof.Machine.execRet s
  | .pushl r1 => Sys2Proof.Machine.execPushl r1 s
  | .popl r1 => Sys2Proof.Machine.execPopl r1 s
  | .printr r1 => Sys2Proof.Machine.execPrintr r1 s
  | .readr r1 => Sys2Proof.Machine.execReadr r1 s

end Sys2Proof.Machine
end

