-- ==== Sys2Proof/Machine/Cycle.lean ====
section
/-! DEFINITION. What one transition of the machine does (R70): a terminal state stays, then the fetch, the dispatch and the instruction. -/

namespace Sys2Proof.Machine

open Sys2Proof

/-- The dispatch of a fetched word (R73): an instruction of the machine's map, or an unknown opcode (R75). -/
def runWord (w : Word) (s : State) : StepResult :=
  match decode s.opMap w with
  | .unknownOpcode _ => unknownOpcode w s
  | .instr i => exec i s

/-- What the fetch leads to (R70, R71, R77). -/
def runFetched (s : State) : StepResult :=
  match fetch s with
  | .endOfProgram => .next (s.halt .haltedEnd)
  | .badPc => fetchFault s
  | .word w => runWord w s

/-- `Step()` of R70, for a program within the bound of R173. -/
def cycle (s : State) : StepResult :=
  if maxInstr < s.imem.length then .refused .programTooLong
  else if s.runState ≠ .running then s.stopped
  else runFetched s

end Sys2Proof.Machine
end

