-- ==== Sys2Proof/Machine/Placement.lean ====
section
/-! DEFINITION. Placing one word of the program where the machine fetches, for the host's probe (`State.withFetchWord` in Step.lean). -/

namespace Sys2Proof.Machine

open Sys2Proof

/-- A program with the word at index `k`, made long enough with zero words. -/
def placeWord : List Word → Nat → Word → List Word
  | [], 0, w => [w]
  | [], k + 1, w => 0 :: placeWord [] k w
  | _ :: rest, 0, w => w :: rest
  | v :: rest, k + 1, w => v :: placeWord rest k w

/-- The `pc` of the probe: the state's own where an instruction can stand there (aligned, and its index within the bound of R173), else the
reset value. -/
def probePc (s : State) : Word :=
  if s.pc.toNat % 4 = 0 ∧ s.pc.toNat / 4 < maxInstr then s.pc else resetPc

/-- The state with the program word placed at its `pc` and everything the fetch needs: a legal `pc`, a program within the bound, the
default opcode map that `decodeTableWord` reads by, and a running machine with no fault recorded. -/
def placeProbe (s : State) (w : Word) : State :=
  { s with
    pc := probePc s
    imem := placeWord (s.imem.take maxInstr) ((probePc s).toNat / 4) w
    opMap := defaultOpMap
    runState := .running
    faultCause := .none
    faultPc := 0
    faultInfo := 0 }

end Sys2Proof.Machine
end

