-- ==== Sys2Proof/Machine/Step.lean ====
section
/-! DEFINITION. The one transition of the machine (R70), and the host's probe. -/

namespace Sys2Proof.Machine

open Sys2Proof

/-- `Step()` of R70. -/
def step (s : State) : Host.Outcome State Fault Refusal := cycle s

/-- The host's probe: the state with the word whose low `nbits` bits are `w` placed where the next step fetches. -/
def State.withFetchWord (s : State) (nbits w : Nat) : State :=
  placeProbe s (BitVec.ofNat 32 (w % 2 ^ nbits))

end Sys2Proof.Machine
end

