-- ==== Sys2Proof/Machine/Assembly.lean ====
section
/-! DEFINITION. The assembler text of an instruction as the spec's examples write it (R61); no step depends on it. -/

namespace Sys2Proof.Machine

open Sys2Proof

/-- The mnemonic of an operation (R56). -/
def mnemonicOf : Op → String
  | .subl => "subl"
  | .addlRegReg => "addl_reg_reg"
  | .addlImmReg => "addl_imm_reg"
  | .imull => "imull"
  | .shrl => "shrl"
  | .movlRegReg => "movl_reg_reg"
  | .movlDerefReg => "movl_deref_reg"
  | .movlRegDeref => "movl_reg_deref"
  | .movlImmReg => "movl_imm_reg"
  | .cmpl => "cmpl"
  | .je => "je"
  | .jl => "jl"
  | .jle => "jle"
  | .jge => "jge"
  | .jbe => "jbe"
  | .jmp => "jmp"
  | .call => "call"
  | .ret => "ret"
  | .pushl => "pushl"
  | .popl => "popl"
  | .printr => "printr"
  | .readr => "readr"

/-- A register field as `r<n>` (R61). -/
def regText (r : RegField) : String := "r" ++ toString r.toNat

/-- An immediate in decimal, as a signed number (R61). -/
def immText (v : Imm16) : String := toString v.toInt

/-- The operands of an instruction in field order (R61). -/
def operandsText : Instr → List String
  | .subl r1 imm => [regText r1, immText imm]
  | .addlRegReg r1 r2 => [regText r1, regText r2]
  | .addlImmReg r1 imm => [regText r1, immText imm]
  | .imull r1 r2 => [regText r1, regText r2]
  | .shrl r1 => [regText r1]
  | .movlRegReg r1 r2 => [regText r1, regText r2]
  | .movlDerefReg r1 r2 imm => [regText r1, regText r2, immText imm]
  | .movlRegDeref r1 r2 imm => [regText r1, regText r2, immText imm]
  | .movlImmReg r1 imm => [regText r1, immText imm]
  | .cmpl r1 r2 => [regText r1, regText r2]
  | .je imm => [immText imm]
  | .jl imm => [immText imm]
  | .jle imm => [immText imm]
  | .jge imm => [immText imm]
  | .jbe imm => [immText imm]
  | .jmp imm => [immText imm]
  | .call imm => [immText imm]
  | .ret => []
  | .pushl r1 => [regText r1]
  | .popl r1 => [regText r1]
  | .printr r1 => [regText r1]
  | .readr r1 => [regText r1]

/-- An instruction as text (R61). -/
def assemblyText (i : Instr) : String :=
  match operandsText i with
  | [] => mnemonicOf (opOfInstr i)
  | t :: rest => mnemonicOf (opOfInstr i) ++ " " ++ rest.foldl (fun acc u => acc ++ ", " ++ u) t

end Sys2Proof.Machine
end

