-- ==== Sys2Proof/Machine/HostMoves.lean ====
section
/-! DEFINITION. The host's moves (R5, R44, R171, R173, R177): starting a run, answering a `readr`, asserting reset, and the cut of a
program image into words (R63). They stand beside the step, which they never call. -/

namespace Sys2Proof.Machine

open Sys2Proof

/-! ### Start of a run and reset -/

/-- The start of a run (R173, R177, R178): the reset state with the program, the opcode map, the other parameter values and the values of
`IN` already at the port, which the host chose while the core was held in reset. `RunArgs.start` is the start with an `IN` of any
length, finite or infinite, whose values come as they are asked for. -/
def startRun (imem input : List Word) (map : OpMap) (policy : UnknownOpcodePolicy) (endian : Endian) : State :=
  { State.reset with imem := imem, input := input, opMap := map, unknownPolicy := policy, dataEndian := endian }

/-- `reset` asserted in any state (R170, R171): every piece of state at its reset value, the parameters of the run kept (that `IN` is kept
too is the model's choice, log entry 5). -/
def State.assertReset (s : State) : State := startRun s.imem s.input s.opMap s.unknownPolicy s.dataEndian

/-! ### Answering a `readr` -/

/-- An instruction that asks the input port for a value once its register check has passed (R72, R80). -/
def asksInput : Instr → Bool
  | .subl _ _ => false
  | .addlRegReg _ _ => false
  | .addlImmReg _ _ => false
  | .imull _ _ => false
  | .shrl _ => false
  | .movlRegReg _ _ => false
  | .movlDerefReg _ _ _ => false
  | .movlRegDeref _ _ _ => false
  | .movlImmReg _ _ => false
  | .cmpl _ _ => false
  | .je _ => false
  | .jl _ => false
  | .jle _ => false
  | .jge _ => false
  | .jbe _ => false
  | .jmp _ => false
  | .call _ => false
  | .ret => false
  | .pushl _ => false
  | .popl _ => false
  | .printr _ => false
  | .readr r1 => decide (r1.toNat < 17)

/-- The fetched word is an instruction that asks the input port for a value. -/
def fetchedAsks (m : OpMap) (f : Fetched) : Bool :=
  match f with
  | .endOfProgram => false
  | .badPc => false
  | .word w =>
    match decode m w with
    | .unknownOpcode _ => false
    | .instr i => asksInput i

/-- The core asks for `IN[in_pos]` and has no answer yet (R80, R140): it runs, its program is within the bound, and a `readr` that has passed
the register check stands at `pc` with no value at the port. -/
def State.awaitsInput (s : State) : Bool :=
  decide (s.imem.length ≤ maxInstr) && decide (s.runState = .running) && fetchedAsks s.opMap (fetch s) && s.nextInput.isNone

/-- The host answers a `readr` with one value (R44, R140, R177). Only a `readr` that waits can be answered: to give a value when none was
asked for is no move. -/
def State.supplyInput (s : State) (v : Word) : Option State :=
  if s.awaitsInput then some (s.deliver v) else none

/-! ### All the moves -/

/-- What the host can do to a started machine (R44, R177): assert reset, and answer a `readr`. It has no other move. -/
inductive HostMove where
  /-- `reset` is asserted (R171). -/
  | reset
  /-- The host answers a `readr` with a value. -/
  | answer (v : Word)
  deriving DecidableEq, Repr

/-- The state after a move of the host, none where the host has no such move (R177). -/
def State.hostMove (s : State) (h : HostMove) : Option State :=
  match h with
  | .reset => some s.assertReset
  | .answer v => s.supplyInput v

/-! ### The program image -/

/-- The words of a program image (R63), four bytes each in the image's byte order; none when its length is not a multiple of 4, which is
a load failure (R154, R173). -/
def imageWords (e : Endian) : List Byte → Option (List Word)
  | [] => some []
  | b0 :: b1 :: b2 :: b3 :: rest => (imageWords e rest).map fun ws => wordOfBytes e b0 b1 b2 b3 :: ws
  | _ => none

/-- The loader's hand-over with the default parameters (R173): none when the image fails to load or has more than 2^30 - 1 words, and
then the core is not started at all. -/
def startImage (e : Endian) (image : List Byte) (input : List Word) : Option State :=
  match imageWords e image with
  | some ws =>
    if ws.length ≤ maxInstr then some (startRun ws input defaultOpMap defaultUnknownPolicy defaultDataEndian) else none
  | none => none

end Sys2Proof.Machine
end

