-- ==== Sys2Proof/Machine/Run.lean ====
section
/-! DEFINITION. A run with its arguments (R4, R79, R178): the program, an input sequence that is finite or infinite, and the parameter values;
the console answers each `readr` that waits with the next value of the sequence, when there is one. -/

namespace Sys2Proof.Machine

open Sys2Proof

/-- `IN` (R4, R178): a finite or infinite sequence of values. It is an argument of a run and no part of State. -/
inductive InputSeq where
  /-- A finite sequence. -/
  | finite (vs : List Word)
  /-- An infinite sequence. -/
  | infinite (f : Nat → Word)

/-- `IN[k]` (R24), none past the end of a finite sequence. -/
def InputSeq.get? (q : InputSeq) (k : Nat) : Option Word :=
  match q with
  | .finite vs => vs[k]?
  | .infinite f => some (f k)

/-- The console answers a `readr` that waits with `IN[in_pos]` (R137, R140). It gives nothing in any other state (R177), nor when the
sequence is exhausted. -/
def State.feed (s : State) (q : InputSeq) : State :=
  match q.get? s.inPos with
  | some v => (s.supplyInput v).getD s
  | none => s

/-- One step of a run over `IN`: the console's answer where one is asked for, then the step of the machine (R79, R80). -/
def runStep (q : InputSeq) (s : State) : StepResult := step (s.feed q)

/-- A run of `n` steps over `IN` (R79). -/
def runSteps (q : InputSeq) : Nat → State → StepResult
  | 0, s => .next s
  | n + 1, s =>
    match runStep q s with
    | .next t => runSteps q n t
    | .fault r => .fault r
    | .refused r => .refused r

/-- The arguments of a run (R4, R178), with the defaults of R4. -/
structure RunArgs where
  /-- `IMEM`; `N_INSTR` is its length. -/
  imem : List Word
  /-- `IN`. -/
  input : InputSeq
  /-- `OPMAP`. -/
  opMap : OpMap := defaultOpMap
  /-- `UNKNOWN_OPCODE_POLICY`. -/
  policy : UnknownOpcodePolicy := defaultUnknownPolicy
  /-- `DATA_ENDIAN`. -/
  endian : Endian := defaultDataEndian

/-- `ProgramLoaded` (R178). -/
def RunArgs.ProgramLoaded (a : RunArgs) : Prop := a.imem.length ≤ maxInstr

/-- `Defaults` (R178). -/
def RunArgs.Defaults (a : RunArgs) : Prop :=
  a.opMap = defaultOpMap ∧ a.policy = defaultUnknownPolicy ∧ a.endian = defaultDataEndian

/-- The state a run starts in, `ResetState` (R170, R178): no value of `IN` has been asked for yet. -/
def RunArgs.start (a : RunArgs) : State := startRun a.imem [] a.opMap a.policy a.endian

/-- The run with these arguments, after `n` steps (R79, R178). -/
def RunArgs.run (a : RunArgs) (n : Nat) : StepResult := runSteps a.input n a.start

end Sys2Proof.Machine
end

