-- ==== Sys2Proof/Safety.lean ====
section
/-! DEFINITION. What counts as a good run, and the words the claims are stated in: success, the invariant of the machine, what a step keeps,
and the tables of registers read and written (R14), of stored addresses and of used bits (R54). -/

namespace Sys2Proof.Machine

open Sys2Proof

/-! ### Outcome of a run (R158, R178) -/

/-- A run ended successfully: either halt (R77, R158). -/
def State.Succeeded (s : State) : Prop := s.runState = .haltedRet ∨ s.runState = .haltedEnd

/-- A run ended in a fault (R153, R158). -/
def State.Failed (s : State) : Prop := s.runState = .faulted

/-- A run has not ended: it takes steps or waits for input (R80, R178). -/
def State.Going (s : State) : Prop := s.runState = .running

/-! ### The invariant -/

/-- No fault is recorded: the reset values of the fault record (R21, R22, R27). -/
def State.NoFaultRecorded (s : State) : Prop :=
  s.faultCause = .none ∧ s.faultPc = 0 ∧ s.faultInfo = 0

/-- What a recorded fault says (R22, R146 to R149), given that `pc` is still that of the faulting instruction (R151). -/
def State.FaultRecordSays (s : State) : Prop :=
  match s.faultCause with
  | .none => False
  | .fetchFault => s.faultInfo = s.pc ∧ (s.pc.toNat % 4 ≠ 0 ∨ 4 * s.imem.length < s.pc.toNat)
  | .decodeError => s.instrWord = some s.faultInfo ∧ opOf s.opMap (opField s.faultInfo) = none
  | .regIndexFault => s.instrWord = some s.faultInfo ∧ ∃ i, decode s.opMap s.faultInfo = .instr i ∧ ¬ i.WellFormed
  | .memoryFault => memSize - 4 < s.faultInfo.toNat

/-- What each run state says of the rest of the state (R20 to R22, R77, R150). -/
def State.StatusSays (s : State) : Prop :=
  match s.runState with
  | .running => s.NoFaultRecorded
  | .haltedRet => s.NoFaultRecorded ∧ s.sp = initSp
  | .haltedEnd => s.NoFaultRecorded ∧ s.pc.toNat = 4 * s.imem.length
  | .faulted => s.faultPc = s.pc ∧ s.FaultRecordSays

/-- The invariant of the machine: memory in canonical form and inside `MEM`, a program within its bound, an opcode map in
which each operation has one number, no more input taken than supplied, and a status that says what the spec says it says. -/
def State.Inv (s : State) : Prop :=
  s.mem.wf ∧ s.imem.length ≤ maxInstr ∧ s.opMap.wf = true ∧ s.inPos ≤ s.input.length ∧ s.StatusSays

/-- The values at the input port are the first values of `IN` (R24, R137). -/
def State.InputFrom (s : State) (q : InputSeq) : Prop :=
  s.inPos ≤ s.input.length ∧ ∀ k v, s.input[k]? = some v → q.get? k = some v

/-! ### What a step keeps -/

/-- The run state and the fault record are as before. -/
def KeepsStatus (s t : State) : Prop :=
  t.runState = s.runState ∧ t.faultCause = s.faultCause ∧ t.faultPc = s.faultPc ∧ t.faultInfo = s.faultInfo

/-- The two streams are as before. -/
def KeepsStreams (s t : State) : Prop := t.out = s.out ∧ t.inPos = s.inPos

/-- The parameters of the run are as before. -/
def KeepsParams (s t : State) : Prop :=
  t.imem = s.imem ∧ t.input = s.input ∧ t.opMap = s.opMap ∧ t.unknownPolicy = s.unknownPolicy ∧ t.dataEndian = s.dataEndian

/-- Every register outside the list is as before. -/
def KeepsRegsBut (ks : List RegIdx) (s t : State) : Prop := ∀ k, k ∉ ks → t.reg k = s.reg k

/-- Every byte of memory is as before. -/
def KeepsMemory (s t : State) : Prop := ∀ a, t.mem.readByte a = s.mem.readByte a

/-- Every byte of memory outside the four from `addr` is as before. -/
def KeepsMemoryBut (addr : Nat) (s t : State) : Prop :=
  ∀ a, (a < addr ∨ addr + 4 ≤ a) → t.mem.readByte a = s.mem.readByte a

/-- The frame of an instruction that writes registers of the list and `pc` only. -/
def WritesOnly (ks : List RegIdx) (s t : State) : Prop :=
  KeepsRegsBut ks s t ∧ KeepsMemory s t ∧ KeepsStatus s t ∧ KeepsStreams s t ∧ KeepsParams s t

/-- The frame of an instruction that stores one word at `addr`, writes registers of the list and `pc`, and nothing else. -/
def StoresOnly (addr : Nat) (ks : List RegIdx) (s t : State) : Prop :=
  KeepsRegsBut ks s t ∧ KeepsMemoryBut addr s t ∧ KeepsStatus s t ∧ KeepsStreams s t ∧ KeepsParams s t

/-- A register field names a register. -/
def Names (r : RegField) (a : RegIdx) : Prop := r.toNat = a.val

/-- The next step fetches the word `w`: the machine runs, its program is within the bound of R173, and `w` stands at an aligned `pc`
(R71). -/
def Fetches (s : State) (w : Word) : Prop :=
  s.imem.length ≤ maxInstr ∧ s.runState = .running ∧ s.pc.toNat % 4 = 0 ∧ s.imem[s.pc.toNat / 4]? = some w

/-! ### The register table (R14) -/

/-- The register field of the explicit destination: the `w` in the columns `x[r1]` and `x[r2]` of R14. -/
def destField (i : Instr) : Option RegField :=
  match i with
  | .subl r1 _ => some r1
  | .addlRegReg _ r2 => some r2
  | .addlImmReg r1 _ => some r1
  | .imull _ r2 => some r2
  | .shrl r1 => some r1
  | .movlRegReg _ r2 => some r2
  | .movlDerefReg _ r2 _ => some r2
  | .movlRegDeref _ _ _ => none
  | .movlImmReg r1 _ => some r1
  | .cmpl _ _ => none
  | .je _ => none
  | .jl _ => none
  | .jle _ => none
  | .jge _ => none
  | .jbe _ => none
  | .jmp _ => none
  | .call _ => none
  | .ret => none
  | .pushl _ => none
  | .popl r1 => some r1
  | .printr _ => none
  | .readr r1 => some r1

/-- The register written implicitly: the `w` in the columns `x[6] implicit` and `x[16] implicit` of R14. -/
def destImplicit (i : Instr) : Option RegIdx :=
  match i with
  | .subl _ _ => none
  | .addlRegReg _ _ => none
  | .addlImmReg _ _ => none
  | .imull _ _ => none
  | .shrl _ => none
  | .movlRegReg _ _ => none
  | .movlDerefReg _ _ _ => none
  | .movlRegDeref _ _ _ => none
  | .movlImmReg _ _ => none
  | .cmpl _ _ => some flagsIdx
  | .je _ => none
  | .jl _ => none
  | .jle _ => none
  | .jge _ => none
  | .jbe _ => none
  | .jmp _ => none
  | .call _ => some spIdx
  | .ret => some spIdx
  | .pushl _ => some spIdx
  | .popl _ => some spIdx
  | .printr _ => none
  | .readr _ => none

/-- The registers the table of R14 marks written, explicit or implicit. -/
def WritesReg (i : Instr) (k : RegIdx) : Prop :=
  (∃ r, destField i = some r ∧ Names r k) ∨ destImplicit i = some k

/-- The registers the table of R14 marks read, explicit or implicit. -/
def readsReg (i : Instr) (k : RegIdx) : Bool :=
  match i with
  | .subl r1 _ => r1.toNat == k.val
  | .addlRegReg r1 r2 => r1.toNat == k.val || r2.toNat == k.val
  | .addlImmReg r1 _ => r1.toNat == k.val
  | .imull r1 r2 => r1.toNat == k.val || r2.toNat == k.val
  | .shrl r1 => r1.toNat == k.val
  | .movlRegReg r1 _ => r1.toNat == k.val
  | .movlDerefReg r1 _ _ => r1.toNat == k.val
  | .movlRegDeref r1 r2 _ => r1.toNat == k.val || r2.toNat == k.val
  | .movlImmReg _ _ => false
  | .cmpl r1 r2 => r1.toNat == k.val || r2.toNat == k.val
  | .je _ => k == flagsIdx
  | .jl _ => k == flagsIdx
  | .jle _ => k == flagsIdx
  | .jge _ => k == flagsIdx
  | .jbe _ => k == flagsIdx
  | .jmp _ => false
  | .call _ => k == spIdx
  | .ret => k == spIdx
  | .pushl r1 => r1.toNat == k.val || k == spIdx
  | .popl _ => k == spIdx
  | .printr r1 => r1.toNat == k.val
  | .readr _ => false

/-! ### The addresses stored to (R30) -/

/-- The address of the word an instruction stores, by the function its meaning uses; none for an instruction that stores nothing. -/
def storeAddr (i : Instr) (s : State) : Option Word :=
  match i with
  | .subl _ _ => none
  | .addlRegReg _ _ => none
  | .addlImmReg _ _ => none
  | .imull _ _ => none
  | .shrl _ => none
  | .movlRegReg _ _ => none
  | .movlDerefReg _ _ _ => none
  | .movlRegDeref _ r2 imm => if h : r2.toNat < 17 then some (effAddr s ⟨r2.toNat, h⟩ imm) else none
  | .movlImmReg _ _ => none
  | .cmpl _ _ => none
  | .je _ => none
  | .jl _ => none
  | .jle _ => none
  | .jge _ => none
  | .jbe _ => none
  | .jmp _ => none
  | .call _ => some (pushAddr s)
  | .ret => none
  | .pushl _ => some (pushAddr s)
  | .popl _ => none
  | .printr _ => none
  | .readr _ => none

/-! ### The used bits of a word (R54) -/

/-- The bits of the fields an operation's form uses, the opcode among them; the others are ignored (R52, R54, R76). -/
def usedBits (o : Op) : Word :=
  match o with
  | .subl => 0xFFC0FFFF
  | .addlRegReg => 0xFFFE0000
  | .addlImmReg => 0xFFC0FFFF
  | .imull => 0xFFFE0000
  | .shrl => 0xFFC00000
  | .movlRegReg => 0xFFFE0000
  | .movlDerefReg => 0xFFFEFFFF
  | .movlRegDeref => 0xFFFEFFFF
  | .movlImmReg => 0xFFC0FFFF
  | .cmpl => 0xFFFE0000
  | .je => 0xF800FFFF
  | .jl => 0xF800FFFF
  | .jle => 0xF800FFFF
  | .jge => 0xF800FFFF
  | .jbe => 0xF800FFFF
  | .jmp => 0xF800FFFF
  | .call => 0xF800FFFF
  | .ret => 0xF8000000
  | .pushl => 0xFFC00000
  | .popl => 0xFFC00000
  | .printr => 0xFFC00000
  | .readr => 0xFFC00000

/-! ### Running a list of instructions -/

/-- Instructions executed one after the other, stopping at the first answer that is no next state. -/
def execAll : List Instr → State → StepResult
  | [], s => .next s
  | i :: rest, s =>
    match exec i s with
    | .next t => execAll rest t
    | .fault r => .fault r
    | .refused r => .refused r

end Sys2Proof.Machine
end

