-- ==== Sys2Proof/Certificates/Slice0/Obligations.lean ====
section
/-! DEFINITION. The statements about the machine, for the provers. Each docstring names the rule or the section of the spec it formalises.
Where a docstring says "the spec's own decision", the point is one the spec's source leaves open and 92_eei_decisions.md settles; where it
names a log entry, the point is the model's choice. -/

open Sys2Proof Sys2Proof.Machine

/-! ### Reset -/

/-- R26: the state of the source after reset. -/
def Obligations.ResetZeroesAllButStackPointer : Prop :=
  State.reset.pc = 0 ∧ State.reset.reg 6 = 1024 ∧ (∀ k : RegIdx, k ≠ 6 → State.reset.reg k = 0) ∧
    (flagCF State.reset.flags = false ∧ flagZF State.reset.flags = false ∧ flagSF State.reset.flags = false ∧
      flagOF State.reset.flags = false) ∧
    ∀ a, a < 1024 → State.reset.mem.readByte a = 0

/-- 10_state.md section 9 (the spec's own decisions D12, D16), and the parameters: the spec's defaults, with no program and no input, which
are the model's choice (log entries 4 and 5). -/
def Obligations.ResetStatusStreamsParameters : Prop :=
  State.reset.runState = .running ∧ State.reset.faultCause.code = 0 ∧ State.reset.faultPc = 0 ∧ State.reset.faultInfo = 0 ∧
    State.reset.out = [] ∧ State.reset.inPos = 0 ∧ State.reset.imem = [] ∧ State.reset.input = [] ∧
    State.reset.opMap = defaultOpMap ∧ State.reset.unknownPolicy = .fault ∧ State.reset.dataEndian = .little

/-- 70_reset_and_hazards.md section 1: reset asserted in any state (the spec's own decision D18) gives the reset state and keeps the
parameters of the run. The spec says that the program is kept; that State holds the parameters is the model's choice (log entry 3), and so
is that the supplied input is kept (log entry 5). -/
def Obligations.AssertedResetKeepsOnlyParameters : Prop :=
  ∀ s : State, KeepsParams s s.assertReset ∧ (∀ k, s.assertReset.reg k = State.reset.reg k) ∧ s.assertReset.pc = 0 ∧
    (∀ a, s.assertReset.mem.readByte a = 0) ∧ s.assertReset.runState = .running ∧ s.assertReset.faultCause = .none ∧
    s.assertReset.faultPc = 0 ∧ s.assertReset.faultInfo = 0 ∧ s.assertReset.out = [] ∧ s.assertReset.inPos = 0

/-! ### Decoding and encoding -/

/-- 95_test_vectors.md sections 1 (S1) and 2.1: words written out there decode to the instructions named there. -/
def Obligations.ListedWordsDecode : Prop :=
  decode defaultOpMap 0x00C00001 = .instr (.subl 3 1) ∧ decode defaultOpMap 0x207FFFFF = .instr (.shrl 1) ∧
    decode defaultOpMap 0x3086FFFC = .instr (.movlDerefReg 2 3 0xFFFC) ∧ decode defaultOpMap 0x380CFFF8 = .instr (.movlRegDeref 0 6 0xFFF8) ∧
    decode defaultOpMap 0x48020000 = .instr (.cmpl 0 1) ∧ decode defaultOpMap 0x7800FFF8 = .instr (.jmp 0xFFF8) ∧
    decode defaultOpMap 0x8FFF0000 = .instr .ret ∧ decode defaultOpMap 0x91400000 = .instr (.pushl 5) ∧
    decode defaultOpMap 0xA0400000 = .instr (.printr 1) ∧ decode defaultOpMap 0xAFFFFFFF = .instr (.readr 31) ∧
    decode defaultOpMap 0xB0000000 = .unknownOpcode 22 ∧ decode defaultOpMap 0xFFFFFFFF = .unknownOpcode 31

/-- 30_encoding.md sections 3 and 4: under any opcode map, the default one among them, decoding the encoding of any instruction gives it
back, every field at every value (ill-formed ones too). That in a map each operation has one number is log entry 13. -/
def Obligations.DecodeOfEncodeIsIdentity : Prop :=
  defaultOpMap.wf = true ∧ ∀ (m : OpMap) (i : Instr), m.wf = true → decode m (encode m i) = .instr i

/-- 30_encoding.md section 4: encoding the four fields of a word gives the word back but for bit 16, which becomes 0. -/
def Obligations.EncodeOfFieldsClearsBit16 : Prop :=
  ∀ w : Word, encodeFields (decodeFields w) = w &&& 0xFFFEFFFF

/-- 30_encoding.md section 2 and 40_step_and_dispatch.md section 2 (the spec's own decision D17): words that agree on the bits the form uses
are the same instruction, under any opcode map. -/
def Obligations.IgnoredBitsDoNotChangeDecoding : Prop :=
  ∀ (m : OpMap) (w w' : Word) (o : Op), opOf m (opField w) = some o → w &&& usedBits o = w' &&& usedBits o →
    decode m w = decode m w'

/-- 30_encoding.md section 2: the immediate is the 16-bit two's-complement value, sign-extended. -/
def Obligations.ImmediateIsSignExtended : Prop :=
  (∀ v : Imm16, (sext32 v).toInt = v.toInt ∧ -32768 ≤ (sext32 v).toInt ∧ (sext32 v).toInt ≤ 32767) ∧
    (sext32 0xFFFF).toInt = -1 ∧ (sext32 0x8000).toInt = -32768 ∧ (sext32 0x7FFF).toInt = 32767

/-- 30_encoding.md section 6 (the spec's own decision D5): an image made of the bytes of words is cut back into those words, and an image
whose length is not a multiple of 4 is not loaded. -/
def Obligations.ImageIsCutIntoItsWords : Prop :=
  (∀ (e : Endian) (ws : List Word),
      imageWords e (ws.flatMap fun w => [byteOfWord e w 0, byteOfWord e w 1, byteOfWord e w 2, byteOfWord e w 3]) = some ws) ∧
    ∀ (e : Endian) (bytes : List Byte), bytes.length % 4 ≠ 0 → imageWords e bytes = none

/-! ### The step -/

/-- 40_step_and_dispatch.md section 1: a step at a word that decodes to an instruction is that instruction; the model's step adds nothing
around it. -/
def Obligations.StepRunsDecodedInstruction : Prop :=
  ∀ (s : State) (w : Word) (i : Instr), Fetches s w → decode s.opMap w = .instr i → step s = exec i s

/-- 40_step_and_dispatch.md section 2 (the spec's own decision D2): a word whose opcode is in no row of the map follows the policy, whatever
its register fields; under the default map these are the words of 0xB0000000 or more. -/
def Obligations.UnknownOpcodeFollowsPolicy : Prop :=
  (∀ w : Word, opOf defaultOpMap (opField w) = none ↔ 0xB0000000 ≤ w.toNat) ∧
    ∀ (s : State) (w : Word), Fetches s w → opOf s.opMap (opField w) = none →
      (s.unknownPolicy = .fault → step s = .next (s.raise .decodeError w)) ∧
        (s.unknownPolicy = .nop → step s = .next (s.setPc (s.pc + 4)))

/-- 60_exceptions.md section 1 and 40_step_and_dispatch.md section 1 (the spec's own decisions D3, D11): a used register field of 17 to 31
raises RegIndexFault with the whole word, before any memory access and any wait for input. -/
def Obligations.BadRegisterFieldRaisesRegIndexFault : Prop :=
  ∀ (s : State) (w : Word) (i : Instr), Fetches s w → decode s.opMap w = .instr i → ¬ i.WellFormed →
    step s = .next (s.raise .regIndexFault w)

/-- 60_exceptions.md section 1 (the spec's own decision D8): a `pc` off the grid or past the end raises FetchFault at the fetch. -/
def Obligations.BadPcRaisesFetchFault : Prop :=
  ∀ s : State, s.imem.length ≤ maxInstr → s.runState = .running →
    (s.pc.toNat % 4 ≠ 0 ∨ 4 * s.imem.length < s.pc.toNat) → step s = .next (s.raise .fetchFault s.pc)

/-- 40_step_and_dispatch.md section 3 (the spec's own decision D15): at the sentinel the machine halts and nothing else changes. -/
def Obligations.SentinelHaltsAtEnd : Prop :=
  ∀ s : State, s.imem.length ≤ maxInstr → s.runState = .running → s.pc.toNat = 4 * s.imem.length →
    step s = .next { s with runState := .haltedEnd }

/-- 40_step_and_dispatch.md section 3 (the spec's own decision D15): a running machine halts in exactly two ways. -/
def Obligations.HaltsInExactlyTwoWays : Prop :=
  ∀ s t : State, s.runState = .running → step s = .next t →
    (t.runState = .haltedEnd ↔ s.pc.toNat = 4 * s.imem.length) ∧
      (t.runState = .haltedRet ↔ ∃ w, Fetches s w ∧ decode s.opMap w = .instr .ret ∧ s.reg 6 = 1024)

/-- 10_state.md section 6 and 70_reset_and_hazards.md section 1 (the spec's own decisions D12, D15): a terminal state never changes by a step.
That the model answers the same state there, where the spec says there is no step, is the model's choice (log entry 1). -/
def Obligations.TerminalStatesStay : Prop :=
  ∀ s : State, s.imem.length ≤ maxInstr → s.runState ≠ .running → step s = .next s

/-- 40_step_and_dispatch.md section 1: every executed instruction of a program within the bound is one transition, never a stop of the model.
In a terminal state and at a `readr` that waits for input the spec says that there is no step: that the model's step answers a next state
there, the same one, is the model's choice (log entries 1 and 2). A longer program is refused (93_implementation_defined.md U13); that it
is the step that refuses is the model's choice too (log entry 8). -/
def Obligations.StepAnswersNextState : Prop :=
  ∀ s : State, (s.imem.length ≤ maxInstr → ∃ t, step s = .next t) ∧
    (maxInstr < s.imem.length → step s = .refused .programTooLong)

/-- 60_exceptions.md section 2 (the spec's own decisions D10, D12): a step that faults is fault entry and nothing else, with the codes of the
table. -/
def Obligations.FaultsArePrecise : Prop :=
  (∀ s t : State, s.runState = .running → step s = .next t → t.runState = .faulted →
      1 ≤ t.faultCause.code.toNat ∧ t.faultCause.code.toNat ≤ 4 ∧
        t = { s with
              runState := .faulted
              faultCause := t.faultCause
              faultPc := s.pc
              faultInfo := t.faultInfo }) ∧
    FaultCause.none.code = 0 ∧ FaultCause.fetchFault.code = 1 ∧ FaultCause.decodeError.code = 2 ∧
    FaultCause.regIndexFault.code = 3 ∧ FaultCause.memoryFault.code = 4

/-- 40_step_and_dispatch.md section 1: the default advance never wraps at a fetched instruction. -/
def Obligations.FetchedPcPlusFourNeverWraps : Prop :=
  ∀ (s : State) (w : Word), Fetches s w → (s.pc + 4).toNat = s.pc.toNat + 4

/-- 20_memory.md sections 1 and 7: no step changes the program, nor any other parameter of the run (that State holds them is the model's
choice, log entry 3). -/
def Obligations.StepKeepsParameters : Prop :=
  ∀ s t : State, step s = .next t → KeepsParams s t

/-! ### Arithmetic -/

/-- R85. -/
def Obligations.SublSubtractsImmediate : Prop :=
  ∀ (r1 : RegField) (imm : Imm16) (s : State),
    opField (encode defaultOpMap (.subl r1 imm)) = 0 ∧
      (∀ a, Names r1 a → ∃ t, exec (.subl r1 imm) s = .next t ∧
        t.reg a = BitVec.ofInt 32 ((s.reg a).toInt - imm.toInt) ∧ t.pc = s.pc + 4 ∧ WritesOnly [a] s t) ∧
      (16 < r1.toNat → ∀ w, s.instrWord = some w → exec (.subl r1 imm) s = .next (s.raise .regIndexFault w))

/-- R86. -/
def Obligations.AddlRegRegAddsIntoSecond : Prop :=
  ∀ (r1 r2 : RegField) (s : State),
    opField (encode defaultOpMap (.addlRegReg r1 r2)) = 1 ∧
      (∀ a b, Names r1 a → Names r2 b → ∃ t, exec (.addlRegReg r1 r2) s = .next t ∧
        t.reg b = BitVec.ofInt 32 ((s.reg b).toInt + (s.reg a).toInt) ∧ t.pc = s.pc + 4 ∧ WritesOnly [b] s t) ∧
      (16 < r1.toNat ∨ 16 < r2.toNat → ∀ w, s.instrWord = some w →
        exec (.addlRegReg r1 r2) s = .next (s.raise .regIndexFault w))

/-- R87. -/
def Obligations.AddlImmRegAddsImmediate : Prop :=
  ∀ (r1 : RegField) (imm : Imm16) (s : State),
    opField (encode defaultOpMap (.addlImmReg r1 imm)) = 2 ∧
      (∀ a, Names r1 a → ∃ t, exec (.addlImmReg r1 imm) s = .next t ∧
        t.reg a = BitVec.ofInt 32 ((s.reg a).toInt + imm.toInt) ∧ t.pc = s.pc + 4 ∧ WritesOnly [a] s t) ∧
      (16 < r1.toNat → ∀ w, s.instrWord = some w → exec (.addlImmReg r1 imm) s = .next (s.raise .regIndexFault w))

/-- 41_arithmetic.md section 2, `imull` (the spec's own decision D6): the low 32 bits of the exact product, by either reading of the
operands. -/
def Obligations.ImullKeepsLowProduct : Prop :=
  ∀ (r1 r2 : RegField) (s : State),
    opField (encode defaultOpMap (.imull r1 r2)) = 3 ∧
      (∀ a b, Names r1 a → Names r2 b → ∃ t, exec (.imull r1 r2) s = .next t ∧
        t.reg b = BitVec.ofInt 32 ((s.reg b).toInt * (s.reg a).toInt) ∧
        t.reg b = BitVec.ofNat 32 ((s.reg b).toNat * (s.reg a).toNat) ∧ t.pc = s.pc + 4 ∧ WritesOnly [b] s t) ∧
      (16 < r1.toNat ∨ 16 < r2.toNat → ∀ w, s.instrWord = some w →
        exec (.imull r1 r2) s = .next (s.raise .regIndexFault w))

/-- R89. -/
def Obligations.ShrlHalvesUnsigned : Prop :=
  ∀ (r1 : RegField) (s : State),
    opField (encode defaultOpMap (.shrl r1)) = 4 ∧
      (∀ a, Names r1 a → ∃ t, exec (.shrl r1) s = .next t ∧
        (t.reg a).toNat = (s.reg a).toNat / 2 ∧ (t.reg a).msb = false ∧ t.pc = s.pc + 4 ∧ WritesOnly [a] s t) ∧
      (16 < r1.toNat → ∀ w, s.instrWord = some w → exec (.shrl r1) s = .next (s.raise .regIndexFault w))

/-! ### Data movement and memory -/

/-- R95. -/
def Obligations.MovlRegRegCopies : Prop :=
  ∀ (r1 r2 : RegField) (s : State),
    opField (encode defaultOpMap (.movlRegReg r1 r2)) = 5 ∧
      (∀ a b, Names r1 a → Names r2 b → ∃ t, exec (.movlRegReg r1 r2) s = .next t ∧
        t.reg b = s.reg a ∧ t.pc = s.pc + 4 ∧ WritesOnly [b] s t) ∧
      (16 < r1.toNat ∨ 16 < r2.toNat → ∀ w, s.instrWord = some w →
        exec (.movlRegReg r1 r2) s = .next (s.raise .regIndexFault w))

/-- R96: any alignment, any address up to 1020; above it MemoryFault with that address. -/
def Obligations.MovlDerefRegLoads : Prop :=
  ∀ (r1 r2 : RegField) (imm : Imm16) (s : State),
    opField (encode defaultOpMap (.movlDerefReg r1 r2 imm)) = 6 ∧
      (∀ a b, Names r1 a → Names r2 b →
        effAddr s a imm = BitVec.ofInt 32 ((s.reg a).toInt + imm.toInt) ∧
        ((effAddr s a imm).toNat ≤ 1020 → ∃ t, exec (.movlDerefReg r1 r2 imm) s = .next t ∧
          t.reg b = s.mem.readWord s.dataEndian (effAddr s a imm).toNat ∧ t.pc = s.pc + 4 ∧ WritesOnly [b] s t) ∧
        (1020 < (effAddr s a imm).toNat →
          exec (.movlDerefReg r1 r2 imm) s = .next (s.raise .memoryFault (effAddr s a imm)))) ∧
      (16 < r1.toNat ∨ 16 < r2.toNat → ∀ w, s.instrWord = some w →
        exec (.movlDerefReg r1 r2 imm) s = .next (s.raise .regIndexFault w))

/-- R97: the four bytes from the effective address become the data register's, every other byte stays. -/
def Obligations.MovlRegDerefStores : Prop :=
  ∀ (r1 r2 : RegField) (imm : Imm16) (s : State),
    opField (encode defaultOpMap (.movlRegDeref r1 r2 imm)) = 7 ∧
      (∀ a b, Names r1 a → Names r2 b →
        effAddr s b imm = BitVec.ofInt 32 ((s.reg b).toInt + imm.toInt) ∧
        ((effAddr s b imm).toNat ≤ 1020 → ∃ t, exec (.movlRegDeref r1 r2 imm) s = .next t ∧
          (∀ j, j < 4 →
            t.mem.readByte ((effAddr s b imm).toNat + j) = byteOfWord s.dataEndian (s.reg a) j) ∧
          t.pc = s.pc + 4 ∧ StoresOnly (effAddr s b imm).toNat [] s t) ∧
        (1020 < (effAddr s b imm).toNat →
          exec (.movlRegDeref r1 r2 imm) s = .next (s.raise .memoryFault (effAddr s b imm)))) ∧
      (16 < r1.toNat ∨ 16 < r2.toNat → ∀ w, s.instrWord = some w →
        exec (.movlRegDeref r1 r2 imm) s = .next (s.raise .regIndexFault w))

/-- R98. -/
def Obligations.MovlImmRegLoadsImmediate : Prop :=
  ∀ (r1 : RegField) (imm : Imm16) (s : State),
    opField (encode defaultOpMap (.movlImmReg r1 imm)) = 8 ∧
      (∀ a, Names r1 a → ∃ t, exec (.movlImmReg r1 imm) s = .next t ∧
        t.reg a = BitVec.ofInt 32 imm.toInt ∧ t.pc = s.pc + 4 ∧ WritesOnly [a] s t) ∧
      (16 < r1.toNat → ∀ w, s.instrWord = some w → exec (.movlImmReg r1 imm) s = .next (s.raise .regIndexFault w))

/-- 20_memory.md section 3 (the spec's own decision D4): which byte of a word stands at which of its four addresses, in both byte orders. -/
def Obligations.WordBytesFollowByteOrder : Prop :=
  (∀ (m : Memory) (a : Nat),
      (m.readWord .little a).toNat =
        (m.readByte a).toNat + 256 * (m.readByte (a + 1)).toNat + 65536 * (m.readByte (a + 2)).toNat +
          16777216 * (m.readByte (a + 3)).toNat ∧
      (m.readWord .big a).toNat =
        16777216 * (m.readByte a).toNat + 65536 * (m.readByte (a + 1)).toNat + 256 * (m.readByte (a + 2)).toNat +
          (m.readByte (a + 3)).toNat) ∧
    ∀ (v : Word) (j : Nat), j < 4 →
      (byteOfWord .little v j).toNat = v.toNat / 256 ^ j % 256 ∧
      (byteOfWord .big v j).toNat = v.toNat / 256 ^ (3 - j) % 256

/-- 20_memory.md sections 3 and 7 (R41's law, under the spec's own decisions D4, D7): a load from the address a store has just written gives
the stored value, in either byte order and at any alignment. -/
def Obligations.StoreThenLoadReturnsValue : Prop :=
  ∀ (r1 r2 r3 : RegField) (imm : Imm16) (s : State) (a b c : RegIdx),
    Names r1 a → Names r2 b → Names r3 c → (effAddr s b imm).toNat ≤ 1020 →
      ∃ t u, exec (.movlRegDeref r1 r2 imm) s = .next t ∧ exec (.movlDerefReg r2 r3 imm) t = .next u ∧
        u.reg c = s.reg a

/-- 20_memory.md sections 1 and 3: whatever the instruction, a byte outside the four it stores to reads as before; an instruction that stores
nothing leaves every byte. -/
def Obligations.MemoryChangesOnlyWhereStored : Prop :=
  ∀ (i : Instr) (s t : State), exec i s = .next t →
    ∀ x, (∀ addr, storeAddr i s = some addr → x < addr.toNat ∨ addr.toNat + 4 ≤ x) →
      t.mem.readByte x = s.mem.readByte x

/-! ### The register table and the flags -/

/-- 10_state.md section 2, the columns `w` of the table: a register the table does not mark written stays. -/
def Obligations.OnlyTableRegistersWritten : Prop :=
  ∀ (i : Instr) (s t : State) (k : RegIdx), exec i s = .next t → ¬ WritesReg i k → t.reg k = s.reg k

/-- 10_state.md section 2, the columns `r` of the table: what a register the table does not mark read holds can change nothing of the next
state but that register. -/
def Obligations.OnlyTableRegistersRead : Prop :=
  ∀ (i : Instr) (s t : State) (k : RegIdx) (v : Word), readsReg i k = false → exec i s = .next t →
    ∃ v', exec i (s.setReg k v) = .next (t.setReg k v')

/-- R17: of all side effects on `x[16]`, `cmpl` makes the only one; any other change is an explicit write through an operand field. -/
def Obligations.OnlyCmplWritesFlagsImplicitly : Prop :=
  ∀ (i : Instr) (s t : State), exec i s = .next t → t.flags ≠ s.flags →
    (∃ r1 r2, i = .cmpl r1 r2) ∨ ∃ r, destField i = some r ∧ Names r 16

/-- 43_compare.md section 1 (the operands are read first by the spec's own decision D21): the four flags of `second - first`, and every other
bit 0. -/
def Obligations.CmplSetsFlagsOfDifference : Prop :=
  ∀ (r1 r2 : RegField) (s : State),
    opField (encode defaultOpMap (.cmpl r1 r2)) = 9 ∧
      (∀ a b, Names r1 a → Names r2 b → ∃ t, exec (.cmpl r1 r2) s = .next t ∧
        (t.reg 16).getLsbD 0 = decide ((s.reg b).toNat < (s.reg a).toNat) ∧
        (t.reg 16).getLsbD 6 = decide (s.reg b = s.reg a) ∧
        (t.reg 16).getLsbD 7 = (s.reg b - s.reg a).msb ∧
        (t.reg 16).getLsbD 11 =
          decide ((s.reg b).toInt - (s.reg a).toInt < -2147483648 ∨ 2147483647 < (s.reg b).toInt - (s.reg a).toInt) ∧
        (∀ k, k ≠ 0 → k ≠ 6 → k ≠ 7 → k ≠ 11 → (t.reg 16).getLsbD k = false) ∧
        t.pc = s.pc + 4 ∧ WritesOnly [16] s t) ∧
      (16 < r1.toNat ∨ 16 < r2.toNat → ∀ w, s.instrWord = some w →
        exec (.cmpl r1 r2) s = .next (s.raise .regIndexFault w))

/-- R18: `cmpl` writes all 32 bits, so the unnamed bits are 0 after it, and what `x[16]` held before leaves no trace (but as an operand). -/
def Obligations.CmplReplacesAllFlagBits : Prop :=
  ∀ (r1 r2 : RegField) (s : State) (a b : RegIdx), Names r1 a → Names r2 b →
    ∃ t, exec (.cmpl r1 r2) s = .next t ∧ t.reg 16 &&& 0xFFFFF73E = 0 ∧
      ∀ v, a ≠ 16 → b ≠ 16 → ∃ u, exec (.cmpl r1 r2) (s.setReg 16 v) = .next u ∧ u.reg 16 = t.reg 16

/-- 43_compare.md section 2, the table of meanings: after `cmpl` each branch is taken exactly on the comparison of second with first. -/
def Obligations.BranchesAfterCmplCompare : Prop :=
  ∀ (r1 r2 : RegField) (imm : Imm16) (s : State) (a b : RegIdx), Names r1 a → Names r2 b →
    ∃ t, exec (.cmpl r1 r2) s = .next t ∧
      exec (.je imm) t = .next (if s.reg b = s.reg a then t.jump imm else t.advance) ∧
      exec (.jl imm) t = .next (if (s.reg b).toInt < (s.reg a).toInt then t.jump imm else t.advance) ∧
      exec (.jle imm) t = .next (if (s.reg b).toInt ≤ (s.reg a).toInt then t.jump imm else t.advance) ∧
      exec (.jge imm) t = .next (if (s.reg a).toInt ≤ (s.reg b).toInt then t.jump imm else t.advance) ∧
      exec (.jbe imm) t = .next (if (s.reg b).toNat ≤ (s.reg a).toNat then t.jump imm else t.advance)

/-- 43_compare.md section 2, the table of patterns: the seven values `cmpl` can give `x[16]`, and when it gives each. -/
def Obligations.CmplGivesSevenPatterns : Prop :=
  ∀ (r1 r2 : RegField) (s : State) (a b : RegIdx), Names r1 a → Names r2 b →
    ∃ t, exec (.cmpl r1 r2) s = .next t ∧
      t.reg 16 ∈ ([0x40, 0x00, 0x81, 0x01, 0x80, 0x881, 0x800] : List Word) ∧
      (t.reg 16 = 0x40 ↔ s.reg a = s.reg b) ∧
      (t.reg 16 = 0x881 ↔ 2147483647 < (s.reg b).toInt - (s.reg a).toInt) ∧
      (t.reg 16 = 0x800 ↔ (s.reg b).toInt - (s.reg a).toInt < -2147483648) ∧
      (-2147483648 ≤ (s.reg b).toInt - (s.reg a).toInt → (s.reg b).toInt - (s.reg a).toInt ≤ 2147483647 →
        (t.reg 16 = 0x00 ↔ (s.reg a).toNat < (s.reg b).toNat ∧ (s.reg a).toInt < (s.reg b).toInt) ∧
        (t.reg 16 = 0x81 ↔ (s.reg b).toNat < (s.reg a).toNat ∧ (s.reg b).toInt < (s.reg a).toInt) ∧
        (t.reg 16 = 0x01 ↔ (s.reg b).toNat < (s.reg a).toNat ∧ (s.reg a).toInt < (s.reg b).toInt) ∧
        (t.reg 16 = 0x80 ↔ (s.reg a).toNat < (s.reg b).toNat ∧ (s.reg b).toInt < (s.reg a).toInt))

/-! ### Branches -/

/-- R114. -/
def Obligations.JeBranchesOnZF : Prop :=
  ∀ (imm : Imm16) (s : State),
    opField (encode defaultOpMap (.je imm)) = 10 ∧
      ∃ t, exec (.je imm) s = .next t ∧ WritesOnly [] s t ∧
        t.pc = if (s.reg 16).getLsbD 6 = true then BitVec.ofInt 32 (s.pc.toNat + imm.toInt) else s.pc + 4

/-- R115. -/
def Obligations.JlBranchesOnSFxorOF : Prop :=
  ∀ (imm : Imm16) (s : State),
    opField (encode defaultOpMap (.jl imm)) = 11 ∧
      ∃ t, exec (.jl imm) s = .next t ∧ WritesOnly [] s t ∧
        t.pc = if (s.reg 16).getLsbD 7 ≠ (s.reg 16).getLsbD 11 then BitVec.ofInt 32 (s.pc.toNat + imm.toInt) else s.pc + 4

/-- R116. -/
def Obligations.JleBranchesOnSFxorOForZF : Prop :=
  ∀ (imm : Imm16) (s : State),
    opField (encode defaultOpMap (.jle imm)) = 12 ∧
      ∃ t, exec (.jle imm) s = .next t ∧ WritesOnly [] s t ∧
        t.pc =
          if (s.reg 16).getLsbD 7 ≠ (s.reg 16).getLsbD 11 ∨ (s.reg 16).getLsbD 6 = true then
            BitVec.ofInt 32 (s.pc.toNat + imm.toInt)
          else s.pc + 4

/-- R117. -/
def Obligations.JgeBranchesOnNotSFxorOF : Prop :=
  ∀ (imm : Imm16) (s : State),
    opField (encode defaultOpMap (.jge imm)) = 13 ∧
      ∃ t, exec (.jge imm) s = .next t ∧ WritesOnly [] s t ∧
        t.pc = if (s.reg 16).getLsbD 7 = (s.reg 16).getLsbD 11 then BitVec.ofInt 32 (s.pc.toNat + imm.toInt) else s.pc + 4

/-- R118. -/
def Obligations.JbeBranchesOnCForZF : Prop :=
  ∀ (imm : Imm16) (s : State),
    opField (encode defaultOpMap (.jbe imm)) = 14 ∧
      ∃ t, exec (.jbe imm) s = .next t ∧ WritesOnly [] s t ∧
        t.pc =
          if (s.reg 16).getLsbD 0 = true ∨ (s.reg 16).getLsbD 6 = true then BitVec.ofInt 32 (s.pc.toNat + imm.toInt)
          else s.pc + 4

/-- R119. -/
def Obligations.JmpAlwaysAddsDisplacement : Prop :=
  ∀ (imm : Imm16) (s : State),
    opField (encode defaultOpMap (.jmp imm)) = 15 ∧
      ∃ t, exec (.jmp imm) s = .next t ∧ WritesOnly [] s t ∧ t.pc = BitVec.ofInt 32 (s.pc.toNat + imm.toInt)

/-! ### Call, return, push, pop -/

/-- 45_call_return_stack.md section 2, `call` (the fault clause by the spec's own decision D12). -/
def Obligations.CallPushesReturnAddress : Prop :=
  ∀ (imm : Imm16) (s : State),
    opField (encode defaultOpMap (.call imm)) = 16 ∧ pushAddr s = s.reg 6 - 4 ∧
      ((pushAddr s).toNat ≤ 1020 → ∃ t, exec (.call imm) s = .next t ∧
        (∀ j, j < 4 → t.mem.readByte ((pushAddr s).toNat + j) = byteOfWord s.dataEndian (s.pc + 4) j) ∧
        t.reg 6 = pushAddr s ∧ t.pc = BitVec.ofInt 32 (s.pc.toNat + imm.toInt) ∧
        StoresOnly (pushAddr s).toNat [6] s t) ∧
      (1020 < (pushAddr s).toNat → exec (.call imm) s = .next (s.raise .memoryFault (pushAddr s)))

/-- 45_call_return_stack.md section 2, `ret` when `x[6]` is not 1024: a pop into `pc`, or MemoryFault. -/
def Obligations.RetPopsReturnAddress : Prop :=
  ∀ s : State, s.reg 6 ≠ 1024 →
    opField (encode defaultOpMap .ret) = 17 ∧
      ((s.reg 6).toNat ≤ 1020 → ∃ t, exec .ret s = .next t ∧
        t.pc = s.mem.readWord s.dataEndian (s.reg 6).toNat ∧ t.reg 6 = s.reg 6 + 4 ∧ WritesOnly [6] s t) ∧
      (1020 < (s.reg 6).toNat → exec .ret s = .next (s.raise .memoryFault (s.reg 6)))

/-- 45_call_return_stack.md section 2, `ret` at top level (the state it leaves by the spec's own decision D14). -/
def Obligations.RetAtTopLevelHalts : Prop :=
  ∀ s : State, s.reg 6 = 1024 → exec .ret s = .next { s with runState := .haltedRet }

/-- 45_call_return_stack.md section 2, `pushl` (`pushl r6` stores the new stack pointer by the spec's own decision D13). -/
def Obligations.PushlStoresBelowStackPointer : Prop :=
  ∀ (r1 : RegField) (s : State),
    opField (encode defaultOpMap (.pushl r1)) = 18 ∧ pushAddr s = s.reg 6 - 4 ∧
      (∀ a, Names r1 a →
        ((pushAddr s).toNat ≤ 1020 → ∃ t, exec (.pushl r1) s = .next t ∧
          (∀ j, j < 4 → t.mem.readByte ((pushAddr s).toNat + j) =
            byteOfWord s.dataEndian (if a = 6 then s.reg 6 - 4 else s.reg a) j) ∧
          t.reg 6 = pushAddr s ∧ t.pc = s.pc + 4 ∧ StoresOnly (pushAddr s).toNat [6] s t) ∧
        (1020 < (pushAddr s).toNat → exec (.pushl r1) s = .next (s.raise .memoryFault (pushAddr s)))) ∧
      (16 < r1.toNat → ∀ w, s.instrWord = some w → exec (.pushl r1) s = .next (s.raise .regIndexFault w))

/-- 45_call_return_stack.md section 2, `popl` (`popl r6` ends at the loaded word plus 4 by the spec's own decision D13). -/
def Obligations.PoplLoadsThenIncrements : Prop :=
  ∀ (r1 : RegField) (s : State),
    opField (encode defaultOpMap (.popl r1)) = 19 ∧
      (∀ a, Names r1 a →
        ((s.reg 6).toNat ≤ 1020 → ∃ t, exec (.popl r1) s = .next t ∧
          (a ≠ 6 → t.reg a = s.mem.readWord s.dataEndian (s.reg 6).toNat ∧ t.reg 6 = s.reg 6 + 4) ∧
          (a = 6 → t.reg 6 = s.mem.readWord s.dataEndian (s.reg 6).toNat + 4) ∧
          t.pc = s.pc + 4 ∧ WritesOnly [a, 6] s t) ∧
        (1020 < (s.reg 6).toNat → exec (.popl r1) s = .next (s.raise .memoryFault (s.reg 6)))) ∧
      (16 < r1.toNat → ∀ w, s.instrWord = some w → exec (.popl r1) s = .next (s.raise .regIndexFault w))

/-- 45_call_return_stack.md section 3 (b): a return that finds `x[6]` and the stored word as the call left them resumes after the call, with
`x[6]` as before it. -/
def Obligations.CallThenRetResumesAfterCall : Prop :=
  ∀ (imm : Imm16) (s : State), (pushAddr s).toNat ≤ 1020 →
    ∃ t, exec (.call imm) s = .next t ∧
      ∀ u : State, u.reg 6 = t.reg 6 → u.dataEndian = s.dataEndian →
        (∀ j, j < 4 → u.mem.readByte ((t.reg 6).toNat + j) = t.mem.readByte ((t.reg 6).toNat + j)) →
          ∃ v, exec .ret u = .next v ∧ v.pc = s.pc + 4 ∧ v.reg 6 = s.reg 6

/-- 45_call_return_stack.md section 3 (a): N pushes and N pops, no operand `x[6]`, restore the stack pointer, and the pops deliver the pushed
values in reverse order (the popped registers taken distinct, so that no later pop overwrites an earlier one). -/
def Obligations.PushesThenPopsReverse : Prop :=
  ∀ (rs ds : List RegField) (s : State),
    ds.length = rs.length → (∀ r ∈ rs, r.toNat < 17 ∧ r.toNat ≠ 6) → (∀ d ∈ ds, d.toNat < 17 ∧ d.toNat ≠ 6) → ds.Nodup →
      4 * rs.length ≤ (s.reg 6).toNat → (s.reg 6).toNat ≤ 1024 →
        ∃ t, execAll (rs.map Instr.pushl ++ ds.map Instr.popl) s = .next t ∧ t.reg 6 = s.reg 6 ∧
          ∀ (j : Nat) (d r : RegField) (a b : RegIdx),
            ds[j]? = some d → rs.reverse[j]? = some r → Names d a → Names r b → t.reg a = s.reg b

/-! ### Console -/

/-- R138. -/
def Obligations.PrintrEmitsRegister : Prop :=
  ∀ (r1 : RegField) (s : State),
    opField (encode defaultOpMap (.printr r1)) = 20 ∧
      (∀ a, Names r1 a → ∃ t, exec (.printr r1) s = .next t ∧
        t.out = s.out ++ [s.reg a] ∧ t.inPos = s.inPos ∧ t.pc = s.pc + 4 ∧ KeepsRegsBut [] s t ∧ KeepsMemory s t ∧
        KeepsStatus s t ∧ KeepsParams s t) ∧
      (16 < r1.toNat → ∀ w, s.instrWord = some w → exec (.printr r1) s = .next (s.raise .regIndexFault w))

/-- R139, when the value is available; the wait is the statement after this one. -/
def Obligations.ReadrTakesNextInput : Prop :=
  ∀ (r1 : RegField) (s : State),
    opField (encode defaultOpMap (.readr r1)) = 21 ∧
      (∀ a v, Names r1 a → s.input[s.inPos]? = some v → ∃ t, exec (.readr r1) s = .next t ∧
        t.reg a = v ∧ t.inPos = s.inPos + 1 ∧ t.out = s.out ∧ t.pc = s.pc + 4 ∧ KeepsRegsBut [a] s t ∧ KeepsMemory s t ∧
        KeepsStatus s t ∧ KeepsParams s t) ∧
      (16 < r1.toNat → ∀ w, s.instrWord = some w → exec (.readr r1) s = .next (s.raise .regIndexFault w))

/-- 46_io.md section 3 (the spec's own decision D16): without a value nothing changes, and the host's answer lets the instruction
complete. That a wait is a step that changes nothing is the model's choice (log entry 2), and so is that the values at the port are a list
in State (log entry 5). -/
def Obligations.ReadrWaitsForInput : Prop :=
  ∀ (r1 : RegField) (s : State) (a : RegIdx), Names r1 a → s.inPos = s.input.length →
    exec (.readr r1) s = .next s ∧
      (∀ v, ∃ t, exec (.readr r1) (s.deliver v) = .next t ∧ t.reg a = v ∧ t.inPos = s.inPos + 1 ∧ t.pc = s.pc + 4) ∧
      ∀ w v, Fetches s w → decode s.opMap w = .instr (.readr r1) →
        step s = .next s ∧ ∃ u t, s.supplyInput v = some u ∧ step u = .next t ∧ t.reg a = v ∧ t.inPos = s.inPos + 1 ∧ t.pc = s.pc + 4

/-- 10_state.md section 7 and 46_io.md section 1 (the spec's own decision D16): only `printr` adds to the output, one value; only `readr` takes
input, one value that the host has supplied. -/
def Obligations.StreamsMoveByConsoleOnly : Prop :=
  ∀ (i : Instr) (s t : State), exec i s = .next t →
    (t.out = s.out ∨ ∃ r a, i = .printr r ∧ Names r a ∧ t.out = s.out ++ [s.reg a]) ∧
      (t.inPos = s.inPos ∨ ∃ r, i = .readr r ∧ s.inPos < s.input.length ∧ t.inPos = s.inPos + 1)

/-! ### The host and the run -/

/-- 70_reset_and_hazards.md section 5 (the spec's own decisions D16, D18): the host can answer exactly where a running machine waits at a
`readr`, and its answer changes nothing but the values at the port; to give a value when none was asked for is no move. That those values
are a list in State is the model's choice (log entry 5). -/
def Obligations.HostAnswersOnlyWaitingReadr : Prop :=
  ∀ (s u : State) (v : Word), s.hostMove (.answer v) = some u ↔
    (∃ w r a, Fetches s w ∧ decode s.opMap w = .instr (.readr r) ∧ Names r a ∧ s.input.length ≤ s.inPos) ∧
      u = { s with input := s.input ++ [v] }

/-- 70_reset_and_hazards.md section 5 and 46_io.md section 3 (the spec's own decision D16): a run over a finite or infinite `IN` starts
with no value asked for, takes the values of `IN` in order and each once, waits only where `IN` is exhausted (never over an infinite
one), and is otherwise the step of the machine. Three things are the model's choice: that a wait, which the spec calls no step, is a step
that answers the same state (log entry 2); that the values at the port are a list in State, empty at the start (log entry 5); and that
the console answers at once (log entry 14). -/
def Obligations.RunTakesInputInOrder : Prop :=
  (∀ a : RunArgs, a.start.input = [] ∧ a.start.InputFrom a.input) ∧
    (∀ (q : InputSeq) (n : Nat) (s t : State), s.InputFrom q → runSteps q n s = .next t → t.InputFrom q) ∧
    (∀ (q : InputSeq) (s : State), s.awaitsInput = false → runStep q s = step s) ∧
    ∀ (q : InputSeq) (s : State) (w : Word) (r : RegField) (k : RegIdx),
      s.InputFrom q → Fetches s w → decode s.opMap w = .instr (.readr r) → Names r k →
        (∀ v, q.get? s.inPos = some v →
          ∃ t, runStep q s = .next t ∧ t.reg k = v ∧ t.inPos = s.inPos + 1 ∧ t.pc = s.pc + 4) ∧
        (q.get? s.inPos = none → runStep q s = .next s) ∧
        ∀ f, q = .infinite f →
          ∃ t, runStep q s = .next t ∧ t.reg k = f s.inPos ∧ t.inPos = s.inPos + 1 ∧ t.pc = s.pc + 4

/-! ### The invariant -/

/-- 10_state.md sections 6 and 9: the invariant holds at reset and at the start of every run with a program within the bound and an opcode
map in which each operation has one number (log entry 13), its `IN` given as values at the port or as a finite or infinite sequence. The model's
choices in it: State holds the parameters, and the values at the port as a list (log entries 3 and 5), and memory is a list in canonical
form (log entry 10). -/
def Obligations.InvariantHoldsAtStart : Prop :=
  State.reset.Inv ∧
    (∀ (imem input : List Word) (m : OpMap) (p : UnknownOpcodePolicy) (e : Endian), imem.length ≤ maxInstr → m.wf = true →
      (startRun imem input m p e).Inv) ∧
    ∀ a : RunArgs, a.ProgramLoaded → a.opMap.wf = true → a.start.Inv

/-- 10_state.md section 6, 20_memory.md section 1, 60_exceptions.md section 1: every step keeps the invariant: no byte outside `MEM`, the
memory list in canonical form, no more input taken than supplied, and the run state and the fault record saying what R20 to R22, R77 and
R146 to R150 say. So does every step of a run over a finite or infinite `IN`, and every move of the host (70_reset_and_hazards.md sections
1 and 5). The model's choices in it: a terminal state and a wait answer the same state (log entries 1 and 2), State holds the parameters
and the values at the port, which a reset keeps (log entries 3 and 5), memory is a list in canonical form (log entry 10), each operation
has one opcode number (log entry 13), and the console answers at once (log entry 14). -/
def Obligations.InvariantKeptByStep : Prop :=
  (∀ s t : State, s.Inv → step s = .next t → t.Inv) ∧
    (∀ (q : InputSeq) (s t : State), s.Inv → runStep q s = .next t → t.Inv) ∧
    ∀ (h : HostMove) (s t : State), s.Inv → s.hostMove h = some t → t.Inv
end

