-- ==== Sys2Proof/Laws/Decode.lean ====
section
/-! SUPPORT. The laws of the encoding: each field of an encoded word reads back, the opcode map has one row per number, and the unknown
opcodes are 22 to 31. -/

namespace Sys2Proof

theorem opField_encodeFields (f : Fields) : opField (encodeFields f) = f.op := by
  ext k hk
  simp only [opField, encodeFields, BitVec.getElem_extractLsb', BitVec.getLsbD_append]
  rw [if_neg (by omega), if_neg (by omega), if_neg (by omega), if_neg (by omega), show 27 + k - 16 - 1 - 5 - 5 = k by omega,
    BitVec.getLsbD_eq_getElem]

theorem r1Field_encodeFields (f : Fields) : r1Field (encodeFields f) = f.r1 := by
  ext k hk
  simp only [r1Field, encodeFields, BitVec.getElem_extractLsb', BitVec.getLsbD_append]
  rw [if_neg (by omega), if_neg (by omega), if_neg (by omega), if_pos (by omega), show 22 + k - 16 - 1 - 5 = k by omega,
    BitVec.getLsbD_eq_getElem]

theorem r2Field_encodeFields (f : Fields) : r2Field (encodeFields f) = f.r2 := by
  ext k hk
  simp only [r2Field, encodeFields, BitVec.getElem_extractLsb', BitVec.getLsbD_append]
  rw [if_neg (by omega), if_neg (by omega), if_pos (by omega), show 17 + k - 16 - 1 = k by omega, BitVec.getLsbD_eq_getElem]

theorem immField_encodeFields (f : Fields) : immField (encodeFields f) = f.imm16 := by
  ext k hk
  simp only [immField, encodeFields, BitVec.getElem_extractLsb', BitVec.getLsbD_append]
  rw [if_pos (by omega), Nat.zero_add, BitVec.getLsbD_eq_getElem]

/-- Bit 16 of an encoded word is 0 (R52, R59). -/
theorem bit16_encodeFields (f : Fields) : (encodeFields f).getLsbD 16 = false := by
  simp only [encodeFields, BitVec.getLsbD_append]
  simp

/-- The default opcode map gives every operation one number (R56). -/
theorem defaultOpMap_wf : defaultOpMap.wf = true := by decide

/-- Each operation stands once in a well-formed opcode map. -/
theorem OpMap.count_of_wf (m : OpMap) (h : m.wf = true) (o : Op) : m.table.toList.count (some o) = 1 := by
  have ho : o ∈ allOps := by cases o <;> decide
  simpa using List.all_eq_true.mp h o ho

/-- The lookup of an opcode number is the lookup in the list of the table. -/
theorem opOf_eq_getElem? (m : OpMap) (n : BitVec 5) : m.table.toList[n.toNat]? = some (opOf m n) := by
  have h : n.toNat < m.table.toList.length := by simpa using n.isLt
  rw [List.getElem?_eq_getElem h]
  simp [opOf]

/-- A number selects the operation it was assigned to (R56). -/
theorem opOf_opNumber (m : OpMap) (h : m.wf = true) (o : Op) : opOf m (opNumber m o) = some o := by
  have hmem : some o ∈ m.table.toList := List.count_pos_iff.mp (by rw [m.count_of_wf h o]; decide)
  have hlt : m.table.toList.idxOf (some o) < m.table.toList.length := List.idxOf_lt_length_of_mem hmem
  have h32 : m.table.toList.idxOf (some o) < 32 := by simpa using hlt
  have hn : (opNumber m o).toNat = m.table.toList.idxOf (some o) := by
    rw [opNumber, BitVec.toNat_ofNat]
    exact Nat.mod_eq_of_lt h32
  apply Option.some.inj
  rw [← opOf_eq_getElem?, hn, List.getElem?_eq_getElem hlt, List.getElem_idxOf]

/-- The operation found has the number looked up. -/
theorem opNumber_of_opOf (m : OpMap) (h : m.wf = true) (n : BitVec 5) (o : Op) (ho : opOf m n = some o) : opNumber m o = n := by
  have h1 := opOf_eq_getElem? m n
  rw [ho] at h1
  have h2 := opOf_eq_getElem? m (opNumber m o)
  rw [opOf_opNumber m h o] at h2
  by_contra hne
  have hne' : (opNumber m o).toNat ≠ n.toNat := fun e => hne (BitVec.eq_of_toNat_eq e)
  have hdup : 2 ≤ m.table.toList.count (some o) := by
    obtain ⟨l1, e1⟩ := List.getElem?_eq_some_iff.mp h1
    obtain ⟨l2, e2⟩ := List.getElem?_eq_some_iff.mp h2
    have hd : List.Duplicate (some o) m.table.toList := by
      rw [List.duplicate_iff_exists_distinct_get]
      rcases Nat.lt_or_gt_of_ne hne' with hl | hl
      · exact ⟨⟨_, l2⟩, ⟨_, l1⟩, hl, e2.symm, e1.symm⟩
      · exact ⟨⟨_, l1⟩, ⟨_, l2⟩, hl, e1.symm, e2.symm⟩
    convert List.duplicate_iff_two_le_count.mp hd using 2
    exact lawful_beq_subsingleton _ _
  rw [m.count_of_wf h o] at hdup
  omega

/-- The unknown opcodes of the default map are the numbers 22 to 31 (R57). -/
theorem opOf_eq_none_iff (n : BitVec 5) : opOf defaultOpMap n = none ↔ 22 ≤ n.toNat := by
  revert n
  decide

/-- A word decodes to an instruction exactly through its operation. -/
theorem decode_eq_instr_iff (m : OpMap) (w : Word) (i : Instr) :
    decode m w = .instr i ↔ ∃ o, opOf m (opField w) = some o ∧ instrOfFields o (decodeFields w) = i := by
  unfold decode
  cases opOf m (opField w) <;> simp

/-- A word is rejected exactly when its opcode is unknown, and the rejection names the opcode. -/
theorem decode_eq_unknown_iff (m : OpMap) (w : Word) (n : BitVec 5) :
    decode m w = .unknownOpcode n ↔ opOf m (opField w) = none ∧ opField w = n := by
  unfold decode
  cases opOf m (opField w) <;> simp

/-- An instruction's canonical fields carry its own operation's number. -/
theorem fieldsOfInstr_op (m : OpMap) (i : Instr) : (fieldsOfInstr m i).op = opNumber m (opOfInstr i) := by
  cases i <;> rfl

end Sys2Proof
end

