-- ==== Sys2Proof/Laws/Memory.lean ====
section
/-! SUPPORT. The laws of data memory: a read after a write, and that every write keeps the canonical form. -/

namespace Sys2Proof.Machine

open Sys2Proof

/-! ### Reads -/

@[simp] theorem Memory.readByte_nil (a : Nat) : Memory.readByte [] a = 0 := rfl

theorem Memory.readByte_cons (c : Host.Cell) (m : List Host.Cell) (a : Nat) :
    Memory.readByte (c :: m) a = if c.1 = a then c.2 else Memory.readByte m a := rfl

/-- An address no cell lists reads as an unlisted byte. -/
theorem Memory.readByte_unlisted (m : Memory) (a : Nat) (h : ∀ c ∈ m, c.1 ≠ a) : m.readByte a = unlistedByte := by
  induction m with
  | nil => rfl
  | cons c m ih =>
    rw [Memory.readByte_cons, if_neg (h c (by simp))]
    exact ih fun d hd => h d (List.mem_cons_of_mem _ hd)

theorem Memory.erase_ne (m : Memory) (a : Nat) : ∀ c ∈ m.erase a, c.1 ≠ a := by
  intro c hc
  simpa using (List.mem_filter.mp hc).2

theorem Memory.readByte_erase (m : Memory) (a b : Nat) :
    (m.erase a).readByte b = if b = a then unlistedByte else m.readByte b := by
  split
  · next h => exact Memory.readByte_unlisted _ _ (h ▸ Memory.erase_ne m a)
  · next h =>
    induction m with
    | nil => rfl
    | cons c m ih =>
      have hf : Memory.erase (c :: m) a = if c.1 != a then c :: Memory.erase m a else Memory.erase m a :=
        List.filter_cons
      rw [hf, Memory.readByte_cons]
      by_cases hc : c.1 = a
      · have : ¬ c.1 = b := by omega
        simp [hc, ih, show ¬ a = b by omega]
      · simp [hc, Memory.readByte_cons, ih]

theorem Memory.readByte_putCell (m : Memory) (c : Host.Cell) (b : Nat) (h : ∀ d ∈ m, d.1 ≠ c.1) :
    (m.putCell c).readByte b = if b = c.1 then c.2 else m.readByte b := by
  induction m with
  | nil => simp [Memory.putCell, Memory.readByte_cons, eq_comm]
  | cons d m ih =>
    have hd : d.1 ≠ c.1 := h d (by simp)
    simp only [Memory.putCell]
    split
    · simp only [Memory.readByte_cons, eq_comm]
    · rw [Memory.readByte_cons, ih fun e he => h e (List.mem_cons_of_mem _ he), Memory.readByte_cons]
      by_cases hb : b = c.1
      · simp [hb, hd]
      · simp [hb]

/-- A read after a byte write: the byte written at its address, every other address as before, for any list of cells. -/
theorem Memory.readByte_writeByte (m : Memory) (a b : Nat) (v : Byte) :
    (m.writeByte a v).readByte b = if b = a then v else m.readByte b := by
  unfold Memory.writeByte
  split
  · next h => rw [Memory.readByte_erase, h]
  · rw [Memory.readByte_putCell _ _ _ (Memory.erase_ne m a), Memory.readByte_erase]
    split <;> rfl

/-- A read of a byte after a word write: one of the word's four bytes, or the byte that was there. -/
theorem Memory.readByte_writeWord (m : Memory) (e : Endian) (a b : Nat) (v : Word) :
    (m.writeWord e a v).readByte b = if a ≤ b ∧ b < a + 4 then byteOfWord e v (b - a) else m.readByte b := by
  simp only [Memory.writeWord, Memory.readByte_writeByte]
  by_cases h3 : b = a + 3
  · subst h3; simp
  · by_cases h2 : b = a + 2
    · subst h2; simp
    · by_cases h1 : b = a + 1
      · subst h1; simp
      · by_cases h0 : b = a
        · subst h0; simp
        · simp [h0, h1, h2, h3, show ¬ (a ≤ b ∧ b < a + 4) by omega]

/-! ### The canonical form -/

theorem Memory.wf_nil : Memory.wf [] := by decide

theorem Memory.wf_erase (m : Memory) (a : Nat) (h : m.wf) : (m.erase a).wf :=
  ⟨h.1.filter _, fun c hc => h.2 c (List.mem_of_mem_filter hc)⟩

theorem Memory.mem_putCell (m : Memory) (c d : Host.Cell) : d ∈ m.putCell c ↔ d = c ∨ d ∈ m := by
  induction m with
  | nil => simp [Memory.putCell]
  | cons e m ih =>
    simp only [Memory.putCell]
    split
    · simp
    · simp only [List.mem_cons, ih]
      tauto

theorem Memory.wf_putCell (m : Memory) (c : Host.Cell) (h : m.wf) (hne : ∀ d ∈ m, d.1 ≠ c.1) (hlt : c.1 < memSize)
    (hv : c.2 ≠ unlistedByte) : (m.putCell c).wf := by
  constructor
  · obtain ⟨hp, -⟩ := h
    induction m with
    | nil => simp [Memory.putCell]
    | cons d m ih =>
      rw [List.pairwise_cons] at hp
      simp only [Memory.putCell]
      split
      · next hcd =>
        simp only [List.pairwise_cons, List.mem_cons]
        refine ⟨?_, hp⟩
        rintro e (rfl | he)
        · exact hcd
        · exact lt_trans hcd (hp.1 e he)
      · next hcd =>
        have hd := hne d (by simp)
        refine List.pairwise_cons.mpr ⟨?_, ih (fun e he => hne e (List.mem_cons_of_mem _ he)) hp.2⟩
        intro e he
        rcases (Memory.mem_putCell m c e).mp he with rfl | he
        · omega
        · exact hp.1 e he
  · intro d hd
    rcases (Memory.mem_putCell m c d).mp hd with rfl | hd
    · exact ⟨hlt, hv⟩
    · exact h.2 d hd

/-- A byte write inside `MEM` keeps the canonical form. -/
theorem Memory.wf_writeByte (m : Memory) (a : Nat) (v : Byte) (h : m.wf) (ha : a < memSize) : (m.writeByte a v).wf := by
  unfold Memory.writeByte
  split
  · exact Memory.wf_erase m a h
  · next hv => exact Memory.wf_putCell _ _ (Memory.wf_erase m a h) (Memory.erase_ne m a) ha hv

/-- A word write inside `MEM` keeps the canonical form. -/
theorem Memory.wf_writeWord (m : Memory) (e : Endian) (a : Nat) (v : Word) (h : m.wf) (ha : a + 3 < memSize) :
    (m.writeWord e a v).wf := by
  unfold Memory.writeWord
  apply Memory.wf_writeByte _ _ _ _ ha
  apply Memory.wf_writeByte _ _ _ _ (by omega)
  apply Memory.wf_writeByte _ _ _ _ (by omega)
  exact Memory.wf_writeByte _ _ _ h (by omega)

/-- The head of a canonical memory holds the lowest listed address. -/
theorem Memory.readByte_below (c : Host.Cell) (m : List Host.Cell) (h : Memory.wf (c :: m)) (a : Nat) (ha : a < c.1) :
    Memory.readByte (c :: m) a = unlistedByte := by
  apply Memory.readByte_unlisted
  rintro d (_ | ⟨_, hd⟩)
  · omega
  · have := (List.pairwise_cons.mp h.1).1 d hd
    omega

/-- Equal contents are equal data: canonical memories that read alike at every address are the same list. -/
theorem Memory.ext_of_wf (m n : Memory) (hm : m.wf) (hn : n.wf) (h : ∀ a, m.readByte a = n.readByte a) : m = n := by
  induction m generalizing n with
  | nil =>
    cases n with
    | nil => rfl
    | cons d n =>
      have := h d.1
      rw [Memory.readByte_cons, if_pos rfl] at this
      exact absurd this.symm (hn.2 d (by simp)).2
  | cons c m ih =>
    cases n with
    | nil =>
      have := h c.1
      rw [Memory.readByte_cons, if_pos rfl] at this
      exact absurd this (hm.2 c (by simp)).2
    | cons d n =>
      have hc : (c.1 : Nat) = d.1 := by
        rcases Nat.lt_trichotomy c.1 d.1 with hlt | heq | hlt
        · have h1 := h c.1
          rw [Memory.readByte_below d n hn c.1 hlt, Memory.readByte_cons, if_pos rfl] at h1
          exact absurd h1 (hm.2 c (by simp)).2
        · exact heq
        · have h1 := h d.1
          rw [Memory.readByte_below c m hm d.1 hlt, Memory.readByte_cons, if_pos rfl] at h1
          exact absurd h1.symm (hn.2 d (by simp)).2
      have hv : c.2 = d.2 := by
        have h1 := h c.1
        rwa [Memory.readByte_cons, if_pos rfl, Memory.readByte_cons, if_pos hc.symm] at h1
      have hcd : c = d := Prod.ext hc hv
      subst hcd
      have hm' := List.pairwise_cons.mp hm.1
      have hn' := List.pairwise_cons.mp hn.1
      have htail : m = n := by
        refine ih n ⟨hm'.2, fun e he => hm.2 e (List.mem_cons_of_mem _ he)⟩
          ⟨hn'.2, fun e he => hn.2 e (List.mem_cons_of_mem _ he)⟩ fun a => ?_
        by_cases ha : c.1 = a
        · rw [Memory.readByte_unlisted m a fun e he => by have := hm'.1 e he; omega,
            Memory.readByte_unlisted n a fun e he => by have := hn'.1 e he; omega]
        · have h1 := h a
          rwa [Memory.readByte_cons, if_neg ha, Memory.readByte_cons, if_neg ha] at h1
      rw [htail]

/-! ### Words -/

/-- The four bytes of a word make the word again, in either byte order. -/
theorem wordOfBytes_byteOfWord (e : Endian) (v : Word) :
    wordOfBytes e (byteOfWord e v 0) (byteOfWord e v 1) (byteOfWord e v 2) (byteOfWord e v 3) = v := by
  cases e <;> (
    simp only [wordOfBytes, byteOfWord]
    ext i hi
    simp only [BitVec.getElem_append, BitVec.getElem_extractLsb']
    rw [← BitVec.getLsbD_eq_getElem]
    split_ifs <;> simp <;> (congr 1; omega))

end Sys2Proof.Machine
end

