-- ==== Sys2Proof/Laws/State.lean ====
section
/-! SUPPORT. One lemma per field per update of the state, and what a register reads as after each update. -/

namespace Sys2Proof.Machine

open Sys2Proof

/-! ### `setReg` -/

@[simp] theorem State.setReg_regs (s : State) (i : RegIdx) (v : Word) : (s.setReg i v).regs = s.regs.set i v := rfl
@[simp] theorem State.setReg_pc (s : State) (i : RegIdx) (v : Word) : (s.setReg i v).pc = s.pc := rfl
@[simp] theorem State.setReg_mem (s : State) (i : RegIdx) (v : Word) : (s.setReg i v).mem = s.mem := rfl
@[simp] theorem State.setReg_runState (s : State) (i : RegIdx) (v : Word) : (s.setReg i v).runState = s.runState := rfl
@[simp] theorem State.setReg_faultCause (s : State) (i : RegIdx) (v : Word) : (s.setReg i v).faultCause = s.faultCause := rfl
@[simp] theorem State.setReg_faultPc (s : State) (i : RegIdx) (v : Word) : (s.setReg i v).faultPc = s.faultPc := rfl
@[simp] theorem State.setReg_faultInfo (s : State) (i : RegIdx) (v : Word) : (s.setReg i v).faultInfo = s.faultInfo := rfl
@[simp] theorem State.setReg_out (s : State) (i : RegIdx) (v : Word) : (s.setReg i v).out = s.out := rfl
@[simp] theorem State.setReg_inPos (s : State) (i : RegIdx) (v : Word) : (s.setReg i v).inPos = s.inPos := rfl
@[simp] theorem State.setReg_imem (s : State) (i : RegIdx) (v : Word) : (s.setReg i v).imem = s.imem := rfl
@[simp] theorem State.setReg_input (s : State) (i : RegIdx) (v : Word) : (s.setReg i v).input = s.input := rfl
@[simp] theorem State.setReg_opMap (s : State) (i : RegIdx) (v : Word) : (s.setReg i v).opMap = s.opMap := rfl
@[simp] theorem State.setReg_unknownPolicy (s : State) (i : RegIdx) (v : Word) : (s.setReg i v).unknownPolicy = s.unknownPolicy := rfl
@[simp] theorem State.setReg_dataEndian (s : State) (i : RegIdx) (v : Word) : (s.setReg i v).dataEndian = s.dataEndian := rfl

/-! ### `setMem` -/

@[simp] theorem State.setMem_regs (s : State) (m : Memory) : (s.setMem m).regs = s.regs := rfl
@[simp] theorem State.setMem_pc (s : State) (m : Memory) : (s.setMem m).pc = s.pc := rfl
@[simp] theorem State.setMem_mem (s : State) (m : Memory) : (s.setMem m).mem = m := rfl
@[simp] theorem State.setMem_runState (s : State) (m : Memory) : (s.setMem m).runState = s.runState := rfl
@[simp] theorem State.setMem_faultCause (s : State) (m : Memory) : (s.setMem m).faultCause = s.faultCause := rfl
@[simp] theorem State.setMem_faultPc (s : State) (m : Memory) : (s.setMem m).faultPc = s.faultPc := rfl
@[simp] theorem State.setMem_faultInfo (s : State) (m : Memory) : (s.setMem m).faultInfo = s.faultInfo := rfl
@[simp] theorem State.setMem_out (s : State) (m : Memory) : (s.setMem m).out = s.out := rfl
@[simp] theorem State.setMem_inPos (s : State) (m : Memory) : (s.setMem m).inPos = s.inPos := rfl
@[simp] theorem State.setMem_imem (s : State) (m : Memory) : (s.setMem m).imem = s.imem := rfl
@[simp] theorem State.setMem_input (s : State) (m : Memory) : (s.setMem m).input = s.input := rfl
@[simp] theorem State.setMem_opMap (s : State) (m : Memory) : (s.setMem m).opMap = s.opMap := rfl
@[simp] theorem State.setMem_unknownPolicy (s : State) (m : Memory) : (s.setMem m).unknownPolicy = s.unknownPolicy := rfl
@[simp] theorem State.setMem_dataEndian (s : State) (m : Memory) : (s.setMem m).dataEndian = s.dataEndian := rfl
@[simp] theorem State.reg_setMem (s : State) (m : Memory) (k : RegIdx) : (s.setMem m).reg k = s.reg k := rfl

/-! ### `setPc` -/

@[simp] theorem State.setPc_regs (s : State) (p : Word) : (s.setPc p).regs = s.regs := rfl
@[simp] theorem State.setPc_pc (s : State) (p : Word) : (s.setPc p).pc = p := rfl
@[simp] theorem State.setPc_mem (s : State) (p : Word) : (s.setPc p).mem = s.mem := rfl
@[simp] theorem State.setPc_runState (s : State) (p : Word) : (s.setPc p).runState = s.runState := rfl
@[simp] theorem State.setPc_faultCause (s : State) (p : Word) : (s.setPc p).faultCause = s.faultCause := rfl
@[simp] theorem State.setPc_faultPc (s : State) (p : Word) : (s.setPc p).faultPc = s.faultPc := rfl
@[simp] theorem State.setPc_faultInfo (s : State) (p : Word) : (s.setPc p).faultInfo = s.faultInfo := rfl
@[simp] theorem State.setPc_out (s : State) (p : Word) : (s.setPc p).out = s.out := rfl
@[simp] theorem State.setPc_inPos (s : State) (p : Word) : (s.setPc p).inPos = s.inPos := rfl
@[simp] theorem State.setPc_imem (s : State) (p : Word) : (s.setPc p).imem = s.imem := rfl
@[simp] theorem State.setPc_input (s : State) (p : Word) : (s.setPc p).input = s.input := rfl
@[simp] theorem State.setPc_opMap (s : State) (p : Word) : (s.setPc p).opMap = s.opMap := rfl
@[simp] theorem State.setPc_unknownPolicy (s : State) (p : Word) : (s.setPc p).unknownPolicy = s.unknownPolicy := rfl
@[simp] theorem State.setPc_dataEndian (s : State) (p : Word) : (s.setPc p).dataEndian = s.dataEndian := rfl
@[simp] theorem State.reg_setPc (s : State) (p : Word) (k : RegIdx) : (s.setPc p).reg k = s.reg k := rfl

/-! ### `advance` -/

@[simp] theorem State.advance_regs (s : State) : (s.advance).regs = s.regs := rfl
@[simp] theorem State.advance_pc (s : State) : (s.advance).pc = s.pc + 4 := rfl
@[simp] theorem State.advance_mem (s : State) : (s.advance).mem = s.mem := rfl
@[simp] theorem State.advance_runState (s : State) : (s.advance).runState = s.runState := rfl
@[simp] theorem State.advance_faultCause (s : State) : (s.advance).faultCause = s.faultCause := rfl
@[simp] theorem State.advance_faultPc (s : State) : (s.advance).faultPc = s.faultPc := rfl
@[simp] theorem State.advance_faultInfo (s : State) : (s.advance).faultInfo = s.faultInfo := rfl
@[simp] theorem State.advance_out (s : State) : (s.advance).out = s.out := rfl
@[simp] theorem State.advance_inPos (s : State) : (s.advance).inPos = s.inPos := rfl
@[simp] theorem State.advance_imem (s : State) : (s.advance).imem = s.imem := rfl
@[simp] theorem State.advance_input (s : State) : (s.advance).input = s.input := rfl
@[simp] theorem State.advance_opMap (s : State) : (s.advance).opMap = s.opMap := rfl
@[simp] theorem State.advance_unknownPolicy (s : State) : (s.advance).unknownPolicy = s.unknownPolicy := rfl
@[simp] theorem State.advance_dataEndian (s : State) : (s.advance).dataEndian = s.dataEndian := rfl
@[simp] theorem State.reg_advance (s : State) (k : RegIdx) : (s.advance).reg k = s.reg k := rfl

/-! ### `jump` -/

@[simp] theorem State.jump_regs (s : State) (imm : Imm16) : (s.jump imm).regs = s.regs := rfl
@[simp] theorem State.jump_pc (s : State) (imm : Imm16) : (s.jump imm).pc = s.pc + sext32 imm := rfl
@[simp] theorem State.jump_mem (s : State) (imm : Imm16) : (s.jump imm).mem = s.mem := rfl
@[simp] theorem State.jump_runState (s : State) (imm : Imm16) : (s.jump imm).runState = s.runState := rfl
@[simp] theorem State.jump_faultCause (s : State) (imm : Imm16) : (s.jump imm).faultCause = s.faultCause := rfl
@[simp] theorem State.jump_faultPc (s : State) (imm : Imm16) : (s.jump imm).faultPc = s.faultPc := rfl
@[simp] theorem State.jump_faultInfo (s : State) (imm : Imm16) : (s.jump imm).faultInfo = s.faultInfo := rfl
@[simp] theorem State.jump_out (s : State) (imm : Imm16) : (s.jump imm).out = s.out := rfl
@[simp] theorem State.jump_inPos (s : State) (imm : Imm16) : (s.jump imm).inPos = s.inPos := rfl
@[simp] theorem State.jump_imem (s : State) (imm : Imm16) : (s.jump imm).imem = s.imem := rfl
@[simp] theorem State.jump_input (s : State) (imm : Imm16) : (s.jump imm).input = s.input := rfl
@[simp] theorem State.jump_opMap (s : State) (imm : Imm16) : (s.jump imm).opMap = s.opMap := rfl
@[simp] theorem State.jump_unknownPolicy (s : State) (imm : Imm16) : (s.jump imm).unknownPolicy = s.unknownPolicy := rfl
@[simp] theorem State.jump_dataEndian (s : State) (imm : Imm16) : (s.jump imm).dataEndian = s.dataEndian := rfl
@[simp] theorem State.reg_jump (s : State) (imm : Imm16) (k : RegIdx) : (s.jump imm).reg k = s.reg k := rfl

/-! ### `raise` -/

@[simp] theorem State.raise_regs (s : State) (c : FaultCause) (info : Word) : (s.raise c info).regs = s.regs := rfl
@[simp] theorem State.raise_pc (s : State) (c : FaultCause) (info : Word) : (s.raise c info).pc = s.pc := rfl
@[simp] theorem State.raise_mem (s : State) (c : FaultCause) (info : Word) : (s.raise c info).mem = s.mem := rfl
@[simp] theorem State.raise_runState (s : State) (c : FaultCause) (info : Word) : (s.raise c info).runState = .faulted := rfl
@[simp] theorem State.raise_faultCause (s : State) (c : FaultCause) (info : Word) : (s.raise c info).faultCause = c := rfl
@[simp] theorem State.raise_faultPc (s : State) (c : FaultCause) (info : Word) : (s.raise c info).faultPc = s.pc := rfl
@[simp] theorem State.raise_faultInfo (s : State) (c : FaultCause) (info : Word) : (s.raise c info).faultInfo = info := rfl
@[simp] theorem State.raise_out (s : State) (c : FaultCause) (info : Word) : (s.raise c info).out = s.out := rfl
@[simp] theorem State.raise_inPos (s : State) (c : FaultCause) (info : Word) : (s.raise c info).inPos = s.inPos := rfl
@[simp] theorem State.raise_imem (s : State) (c : FaultCause) (info : Word) : (s.raise c info).imem = s.imem := rfl
@[simp] theorem State.raise_input (s : State) (c : FaultCause) (info : Word) : (s.raise c info).input = s.input := rfl
@[simp] theorem State.raise_opMap (s : State) (c : FaultCause) (info : Word) : (s.raise c info).opMap = s.opMap := rfl
@[simp] theorem State.raise_unknownPolicy (s : State) (c : FaultCause) (info : Word) : (s.raise c info).unknownPolicy = s.unknownPolicy := rfl
@[simp] theorem State.raise_dataEndian (s : State) (c : FaultCause) (info : Word) : (s.raise c info).dataEndian = s.dataEndian := rfl
@[simp] theorem State.reg_raise (s : State) (c : FaultCause) (info : Word) (k : RegIdx) : (s.raise c info).reg k = s.reg k := rfl

/-! ### `halt` -/

@[simp] theorem State.halt_regs (s : State) (r : RunState) : (s.halt r).regs = s.regs := rfl
@[simp] theorem State.halt_pc (s : State) (r : RunState) : (s.halt r).pc = s.pc := rfl
@[simp] theorem State.halt_mem (s : State) (r : RunState) : (s.halt r).mem = s.mem := rfl
@[simp] theorem State.halt_runState (s : State) (r : RunState) : (s.halt r).runState = r := rfl
@[simp] theorem State.halt_faultCause (s : State) (r : RunState) : (s.halt r).faultCause = s.faultCause := rfl
@[simp] theorem State.halt_faultPc (s : State) (r : RunState) : (s.halt r).faultPc = s.faultPc := rfl
@[simp] theorem State.halt_faultInfo (s : State) (r : RunState) : (s.halt r).faultInfo = s.faultInfo := rfl
@[simp] theorem State.halt_out (s : State) (r : RunState) : (s.halt r).out = s.out := rfl
@[simp] theorem State.halt_inPos (s : State) (r : RunState) : (s.halt r).inPos = s.inPos := rfl
@[simp] theorem State.halt_imem (s : State) (r : RunState) : (s.halt r).imem = s.imem := rfl
@[simp] theorem State.halt_input (s : State) (r : RunState) : (s.halt r).input = s.input := rfl
@[simp] theorem State.halt_opMap (s : State) (r : RunState) : (s.halt r).opMap = s.opMap := rfl
@[simp] theorem State.halt_unknownPolicy (s : State) (r : RunState) : (s.halt r).unknownPolicy = s.unknownPolicy := rfl
@[simp] theorem State.halt_dataEndian (s : State) (r : RunState) : (s.halt r).dataEndian = s.dataEndian := rfl
@[simp] theorem State.reg_halt (s : State) (r : RunState) (k : RegIdx) : (s.halt r).reg k = s.reg k := rfl

/-! ### `emit` -/

@[simp] theorem State.emit_regs (s : State) (v : Word) : (s.emit v).regs = s.regs := rfl
@[simp] theorem State.emit_pc (s : State) (v : Word) : (s.emit v).pc = s.pc := rfl
@[simp] theorem State.emit_mem (s : State) (v : Word) : (s.emit v).mem = s.mem := rfl
@[simp] theorem State.emit_runState (s : State) (v : Word) : (s.emit v).runState = s.runState := rfl
@[simp] theorem State.emit_faultCause (s : State) (v : Word) : (s.emit v).faultCause = s.faultCause := rfl
@[simp] theorem State.emit_faultPc (s : State) (v : Word) : (s.emit v).faultPc = s.faultPc := rfl
@[simp] theorem State.emit_faultInfo (s : State) (v : Word) : (s.emit v).faultInfo = s.faultInfo := rfl
@[simp] theorem State.emit_out (s : State) (v : Word) : (s.emit v).out = s.out ++ [v] := rfl
@[simp] theorem State.emit_inPos (s : State) (v : Word) : (s.emit v).inPos = s.inPos := rfl
@[simp] theorem State.emit_imem (s : State) (v : Word) : (s.emit v).imem = s.imem := rfl
@[simp] theorem State.emit_input (s : State) (v : Word) : (s.emit v).input = s.input := rfl
@[simp] theorem State.emit_opMap (s : State) (v : Word) : (s.emit v).opMap = s.opMap := rfl
@[simp] theorem State.emit_unknownPolicy (s : State) (v : Word) : (s.emit v).unknownPolicy = s.unknownPolicy := rfl
@[simp] theorem State.emit_dataEndian (s : State) (v : Word) : (s.emit v).dataEndian = s.dataEndian := rfl
@[simp] theorem State.reg_emit (s : State) (v : Word) (k : RegIdx) : (s.emit v).reg k = s.reg k := rfl

/-! ### `consume` -/

@[simp] theorem State.consume_regs (s : State) : (s.consume).regs = s.regs := rfl
@[simp] theorem State.consume_pc (s : State) : (s.consume).pc = s.pc := rfl
@[simp] theorem State.consume_mem (s : State) : (s.consume).mem = s.mem := rfl
@[simp] theorem State.consume_runState (s : State) : (s.consume).runState = s.runState := rfl
@[simp] theorem State.consume_faultCause (s : State) : (s.consume).faultCause = s.faultCause := rfl
@[simp] theorem State.consume_faultPc (s : State) : (s.consume).faultPc = s.faultPc := rfl
@[simp] theorem State.consume_faultInfo (s : State) : (s.consume).faultInfo = s.faultInfo := rfl
@[simp] theorem State.consume_out (s : State) : (s.consume).out = s.out := rfl
@[simp] theorem State.consume_inPos (s : State) : (s.consume).inPos = s.inPos + 1 := rfl
@[simp] theorem State.consume_imem (s : State) : (s.consume).imem = s.imem := rfl
@[simp] theorem State.consume_input (s : State) : (s.consume).input = s.input := rfl
@[simp] theorem State.consume_opMap (s : State) : (s.consume).opMap = s.opMap := rfl
@[simp] theorem State.consume_unknownPolicy (s : State) : (s.consume).unknownPolicy = s.unknownPolicy := rfl
@[simp] theorem State.consume_dataEndian (s : State) : (s.consume).dataEndian = s.dataEndian := rfl
@[simp] theorem State.reg_consume (s : State) (k : RegIdx) : (s.consume).reg k = s.reg k := rfl

/-! ### `deliver` -/

@[simp] theorem State.deliver_regs (s : State) (v : Word) : (s.deliver v).regs = s.regs := rfl
@[simp] theorem State.deliver_pc (s : State) (v : Word) : (s.deliver v).pc = s.pc := rfl
@[simp] theorem State.deliver_mem (s : State) (v : Word) : (s.deliver v).mem = s.mem := rfl
@[simp] theorem State.deliver_runState (s : State) (v : Word) : (s.deliver v).runState = s.runState := rfl
@[simp] theorem State.deliver_faultCause (s : State) (v : Word) : (s.deliver v).faultCause = s.faultCause := rfl
@[simp] theorem State.deliver_faultPc (s : State) (v : Word) : (s.deliver v).faultPc = s.faultPc := rfl
@[simp] theorem State.deliver_faultInfo (s : State) (v : Word) : (s.deliver v).faultInfo = s.faultInfo := rfl
@[simp] theorem State.deliver_out (s : State) (v : Word) : (s.deliver v).out = s.out := rfl
@[simp] theorem State.deliver_inPos (s : State) (v : Word) : (s.deliver v).inPos = s.inPos := rfl
@[simp] theorem State.deliver_imem (s : State) (v : Word) : (s.deliver v).imem = s.imem := rfl
@[simp] theorem State.deliver_input (s : State) (v : Word) : (s.deliver v).input = s.input ++ [v] := rfl
@[simp] theorem State.deliver_opMap (s : State) (v : Word) : (s.deliver v).opMap = s.opMap := rfl
@[simp] theorem State.deliver_unknownPolicy (s : State) (v : Word) : (s.deliver v).unknownPolicy = s.unknownPolicy := rfl
@[simp] theorem State.deliver_dataEndian (s : State) (v : Word) : (s.deliver v).dataEndian = s.dataEndian := rfl
@[simp] theorem State.reg_deliver (s : State) (v : Word) (k : RegIdx) : (s.deliver v).reg k = s.reg k := rfl

/-! ### Registers -/

/-- What a register reads as after a register write. -/
theorem State.reg_setReg (s : State) (i k : RegIdx) (v : Word) :
    (s.setReg i v).reg k = if k = i then v else s.reg k := by
  simp only [State.reg, State.setReg, Fin.getElem_fin, Vector.getElem_set, Fin.ext_iff, eq_comm]

@[simp] theorem State.reg_setReg_same (s : State) (i : RegIdx) (v : Word) : (s.setReg i v).reg i = v := by
  simp [State.reg_setReg]

theorem State.reg_setReg_ne (s : State) (i k : RegIdx) (v : Word) (h : k ≠ i) : (s.setReg i v).reg k = s.reg k := by
  simp [State.reg_setReg, h]

/-- Two register files that read alike are equal. -/
theorem State.regs_ext (s t : State) (h : ∀ k, s.reg k = t.reg k) : s.regs = t.regs :=
  Vector.ext fun i hi => h ⟨i, hi⟩

/-- Two states with equal fields, the registers compared by reading them. -/
theorem State.ext_reads (s t : State) (hr : ∀ k, s.reg k = t.reg k) (hpc : s.pc = t.pc) (hm : s.mem = t.mem)
    (hs : s.runState = t.runState) (hc : s.faultCause = t.faultCause) (hp : s.faultPc = t.faultPc)
    (hi : s.faultInfo = t.faultInfo) (ho : s.out = t.out) (hn : s.inPos = t.inPos) (him : s.imem = t.imem)
    (hin : s.input = t.input) (hmap : s.opMap = t.opMap) (hu : s.unknownPolicy = t.unknownPolicy) (he : s.dataEndian = t.dataEndian) : s = t := by
  have h := State.regs_ext s t hr
  cases s
  cases t
  simp_all

/-- The stack pointer is register 6. -/
theorem State.sp_eq (s : State) : s.sp = s.reg spIdx := rfl

/-- The flags register is register 16. -/
theorem State.flags_eq (s : State) : s.flags = s.reg flagsIdx := rfl

end Sys2Proof.Machine
end

