-- ==== Sys2Proof/Laws/Ops.lean ====
section
/-! SUPPORT. What each shared operation can do, said once: the register check, the load, the store, the fetch and the flag word. -/

namespace Sys2Proof.Machine

open Sys2Proof

/-! ### The register check (R72) -/

theorem useReg_ok (r : RegField) (a : RegIdx) (h : r.toNat = a.val) (s : State) (k : RegIdx → StepResult) :
    useReg r s k = k a := by
  have hlt : r.toNat < 17 := h ▸ a.isLt
  rw [useReg, dif_pos hlt]
  exact congrArg k (Fin.ext h)

theorem useReg_bad (r : RegField) (h : 17 ≤ r.toNat) (s : State) (k : RegIdx → StepResult) :
    useReg r s k = regIndexFault s := by
  rw [useReg, dif_neg (by omega)]

theorem useRegs_ok (r1 r2 : RegField) (a b : RegIdx) (h1 : r1.toNat = a.val) (h2 : r2.toNat = b.val) (s : State)
    (k : RegIdx → RegIdx → StepResult) : useRegs r1 r2 s k = k a b := by
  rw [useRegs, useReg_ok r1 a h1, useReg_ok r2 b h2]

theorem useRegs_bad (r1 r2 : RegField) (h : 17 ≤ r1.toNat ∨ 17 ≤ r2.toNat) (s : State)
    (k : RegIdx → RegIdx → StepResult) : useRegs r1 r2 s k = regIndexFault s := by
  by_cases h1 : 17 ≤ r1.toNat
  · rw [useRegs, useReg_bad r1 h1]
  · rw [useRegs, useReg_ok r1 ⟨r1.toNat, by omega⟩ rfl, useReg_bad r2 (by omega)]

/-- What the register check of one field can answer: the rest of the rule on the register named, or the fault of R148. -/
theorem useReg_cases (r : RegField) (s : State) (k : RegIdx → StepResult) :
    (∃ a : RegIdx, r.toNat = a.val ∧ useReg r s k = k a) ∨ (17 ≤ r.toNat ∧ useReg r s k = regIndexFault s) := by
  by_cases h : r.toNat < 17
  · exact .inl ⟨⟨r.toNat, h⟩, rfl, useReg_ok r _ rfl s k⟩
  · exact .inr ⟨by omega, useReg_bad r (by omega) s k⟩

/-- What the register check of two fields can answer. -/
theorem useRegs_cases (r1 r2 : RegField) (s : State) (k : RegIdx → RegIdx → StepResult) :
    (∃ a b : RegIdx, r1.toNat = a.val ∧ r2.toNat = b.val ∧ useRegs r1 r2 s k = k a b) ∨
      ((17 ≤ r1.toNat ∨ 17 ≤ r2.toNat) ∧ useRegs r1 r2 s k = regIndexFault s) := by
  by_cases h : 17 ≤ r1.toNat ∨ 17 ≤ r2.toNat
  · exact .inr ⟨h, useRegs_bad r1 r2 h s k⟩
  · exact .inl ⟨⟨r1.toNat, by omega⟩, ⟨r2.toNat, by omega⟩, rfl, rfl, useRegs_ok r1 r2 _ _ rfl rfl s k⟩

theorem regIndexFault_of_word (s : State) (w : Word) (h : s.instrWord = some w) :
    regIndexFault s = .next (s.raise .regIndexFault w) := by
  rw [regIndexFault, h]

/-- A next state of the register fault is fault entry with the word at `pc`. -/
theorem regIndexFault_next (s t : State) (h : regIndexFault s = .next t) :
    ∃ w, s.instrWord = some w ∧ t = s.raise .regIndexFault w := by
  unfold regIndexFault at h
  split at h
  · next w hw => exact ⟨w, hw, (Host.Outcome.next.inj h).symm⟩
  · cases h

/-! ### Loads and stores (R32 to R34) -/

theorem memLegal_iff (addr : Word) : memLegal addr = true ↔ addr.toNat ≤ 1020 :=
  decide_eq_true_iff

theorem loadWord_legal (addr : Word) (s : State) (k : Word → StepResult) (h : addr.toNat ≤ 1020) :
    loadWord addr s k = k (s.mem.readWord s.dataEndian addr.toNat) := by
  rw [loadWord, if_pos ((memLegal_iff addr).mpr h)]

theorem loadWord_illegal (addr : Word) (s : State) (k : Word → StepResult) (h : 1020 < addr.toNat) :
    loadWord addr s k = .next (s.raise .memoryFault addr) := by
  rw [loadWord, if_neg]
  rw [memLegal_iff]
  omega

theorem storeWord_legal (addr v : Word) (s : State) (k : State → StepResult) (h : addr.toNat ≤ 1020) :
    storeWord addr v s k = k (s.setMem (s.mem.writeWord s.dataEndian addr.toNat v)) := by
  rw [storeWord, if_pos ((memLegal_iff addr).mpr h)]

theorem storeWord_illegal (addr v : Word) (s : State) (k : State → StepResult) (h : 1020 < addr.toNat) :
    storeWord addr v s k = .next (s.raise .memoryFault addr) := by
  rw [storeWord, if_neg]
  rw [memLegal_iff]
  omega

/-! ### The fetch (R71) -/

/-- The fetch finds a word exactly at an aligned `pc` inside the program. -/
theorem fetch_eq_word_iff (s : State) (w : Word) :
    fetch s = .word w ↔ s.pc.toNat % 4 = 0 ∧ s.instrWord = some w := by
  unfold fetch
  split
  · next h =>
    have : s.instrWord = none := by
      rw [State.instrWord, List.getElem?_eq_none_iff]
      omega
    simp [this]
  · split
    · next h => simp [h]
    · next h =>
      cases hw : s.instrWord <;> simp at h ⊢
      omega

/-- The fetch finds the end of the program exactly at the sentinel (R77). -/
theorem fetch_eq_end_iff (s : State) : fetch s = .endOfProgram ↔ s.pc.toNat = 4 * s.imem.length := by
  unfold fetch
  split
  · next h => simp [h]
  · next h =>
    split
    · simp [h]
    · cases s.instrWord <;> simp [h]

/-- The fetch finds no instruction exactly where R71 raises `FetchFault`. -/
theorem fetch_eq_badPc_iff (s : State) :
    fetch s = .badPc ↔ s.pc.toNat % 4 ≠ 0 ∨ 4 * s.imem.length < s.pc.toNat := by
  unfold fetch
  split
  · next h => simp; omega
  · next h =>
    split
    · next h4 => simp [h4]
    · next h4 =>
      cases hw : s.instrWord with
      | none =>
        rw [State.instrWord, List.getElem?_eq_none_iff] at hw
        simp
        omega
      | some w =>
        have hlt : s.pc.toNat / 4 < s.imem.length := (List.getElem?_eq_some_iff.mp hw).1
        simp
        omega

/-! ### The flag word of a comparison (R105) -/

theorem flagCF_compareFlags (a b : Word) : flagCF (compareFlags a b) = decide (b.toNat < a.toNat) := by
  simp only [compareFlags, flagIf, flagCF, maskCF, maskZF, maskSF, maskOF]
  split_ifs <;> simp_all

theorem flagZF_compareFlags (a b : Word) : flagZF (compareFlags a b) = decide (truncDiff a b = 0) := by
  simp only [compareFlags, flagIf, flagZF, maskCF, maskZF, maskSF, maskOF]
  split_ifs <;> simp_all

theorem flagSF_compareFlags (a b : Word) : flagSF (compareFlags a b) = (truncDiff a b).msb := by
  simp only [compareFlags, flagIf, flagSF, maskCF, maskZF, maskSF, maskOF]
  split_ifs <;> simp_all

theorem flagOF_compareFlags (a b : Word) :
    flagOF (compareFlags a b) = decide (wideDiff a b < -2147483648 ∨ wideDiff a b > 2147483647) := by
  simp only [compareFlags, flagIf, flagOF, maskCF, maskZF, maskSF, maskOF]
  split_ifs <;> simp_all

/-- The truncated difference is the wrapped difference. -/
theorem truncDiff_eq_sub (a b : Word) : truncDiff a b = b - a := by
  apply BitVec.eq_of_toInt_eq
  rw [truncDiff, wideDiff, BitVec.toInt_ofInt, BitVec.toInt_sub]

end Sys2Proof.Machine
end

