-- ==== Sys2Proof/Laws/Exec.lean ====
section
/-! SUPPORT. The dispatch of each instruction to its meaning (R73), one lemma per arm. -/

namespace Sys2Proof.Machine

open Sys2Proof

@[simp] theorem exec_subl (r1 : RegField) (imm : Imm16) (s : State) : exec (.subl r1 imm) s = execSubl r1 imm s := rfl
@[simp] theorem exec_addlRegReg (r1 r2 : RegField) (s : State) : exec (.addlRegReg r1 r2) s = execAddlRegReg r1 r2 s := rfl
@[simp] theorem exec_addlImmReg (r1 : RegField) (imm : Imm16) (s : State) :
    exec (.addlImmReg r1 imm) s = execAddlImmReg r1 imm s := rfl
@[simp] theorem exec_imull (r1 r2 : RegField) (s : State) : exec (.imull r1 r2) s = execImull r1 r2 s := rfl
@[simp] theorem exec_shrl (r1 : RegField) (s : State) : exec (.shrl r1) s = execShrl r1 s := rfl
@[simp] theorem exec_movlRegReg (r1 r2 : RegField) (s : State) : exec (.movlRegReg r1 r2) s = execMovlRegReg r1 r2 s := rfl
@[simp] theorem exec_movlDerefReg (r1 r2 : RegField) (imm : Imm16) (s : State) :
    exec (.movlDerefReg r1 r2 imm) s = execMovlDerefReg r1 r2 imm s := rfl
@[simp] theorem exec_movlRegDeref (r1 r2 : RegField) (imm : Imm16) (s : State) :
    exec (.movlRegDeref r1 r2 imm) s = execMovlRegDeref r1 r2 imm s := rfl
@[simp] theorem exec_movlImmReg (r1 : RegField) (imm : Imm16) (s : State) :
    exec (.movlImmReg r1 imm) s = execMovlImmReg r1 imm s := rfl
@[simp] theorem exec_cmpl (r1 r2 : RegField) (s : State) : exec (.cmpl r1 r2) s = execCmpl r1 r2 s := rfl
@[simp] theorem exec_je (imm : Imm16) (s : State) : exec (.je imm) s = execJe imm s := rfl
@[simp] theorem exec_jl (imm : Imm16) (s : State) : exec (.jl imm) s = execJl imm s := rfl
@[simp] theorem exec_jle (imm : Imm16) (s : State) : exec (.jle imm) s = execJle imm s := rfl
@[simp] theorem exec_jge (imm : Imm16) (s : State) : exec (.jge imm) s = execJge imm s := rfl
@[simp] theorem exec_jbe (imm : Imm16) (s : State) : exec (.jbe imm) s = execJbe imm s := rfl
@[simp] theorem exec_jmp (imm : Imm16) (s : State) : exec (.jmp imm) s = execJmp imm s := rfl
@[simp] theorem exec_call (imm : Imm16) (s : State) : exec (.call imm) s = execCall imm s := rfl
@[simp] theorem exec_ret (s : State) : exec .ret s = execRet s := rfl
@[simp] theorem exec_pushl (r1 : RegField) (s : State) : exec (.pushl r1) s = execPushl r1 s := rfl
@[simp] theorem exec_popl (r1 : RegField) (s : State) : exec (.popl r1) s = execPopl r1 s := rfl
@[simp] theorem exec_printr (r1 : RegField) (s : State) : exec (.printr r1) s = execPrintr r1 s := rfl
@[simp] theorem exec_readr (r1 : RegField) (s : State) : exec (.readr r1) s = execReadr r1 s := rfl

end Sys2Proof.Machine
end

