-- ==== Sys2Proof/Laws/Frame.lean ====
section
/-! SUPPORT. What an instruction can do to the state outside its registers and `pc`, said once. -/

namespace Sys2Proof.Machine

open Sys2Proof

/-- A next state of an instruction is the register fault of an ill-formed one, a memory fault, the halt of `ret`, or a state with the run
state, the fault record and the parameters as before, at most one legal word stored, and the streams moved by the console
instructions only. -/
theorem exec_next_cases (i : Instr) (s t : State) (h : exec i s = .next t) :
    (∃ w, s.instrWord = some w ∧ ¬ i.WellFormed ∧ t = s.raise .regIndexFault w) ∨
      (i.WellFormed ∧
        ((∃ addr, 1020 < addr.toNat ∧ t = s.raise .memoryFault addr) ∨
          (i = .ret ∧ s.sp = initSp ∧ t = s.halt .haltedRet) ∨
          (KeepsStatus s t ∧ KeepsParams s t ∧
            (t.mem = s.mem ∨ ∃ addr v, addr ≤ 1020 ∧ t.mem = s.mem.writeWord s.dataEndian addr v) ∧
            (t.out = s.out ∨ ∃ r a, i = .printr r ∧ Names r a ∧ t.out = s.out ++ [s.reg a]) ∧
            (t.inPos = s.inPos ∨ ∃ r, i = .readr r ∧ s.inPos < s.input.length ∧ t.inPos = s.inPos + 1)))) := by
  cases i <;>
    simp only [exec, execSubl, execAddlRegReg, execAddlImmReg, execImull, execShrl, execMovlRegReg, execMovlDerefReg,
      execMovlRegDeref, execMovlImmReg, execCmpl, execPopl, execPushl, execCall, execPrintr, execReadr, execJe, execJl, execJle,
      execJge, execJbe, execJmp, execRet, useReg, useRegs, loadWord, storeWord, branchIf, State.waiting, memLegal,
      decide_eq_true_eq, if_true] at h
  all_goals (repeat' split at h)
  all_goals first
    | (left; obtain ⟨w, hw, rfl⟩ := regIndexFault_next _ _ h
       exact ⟨w, hw, by simp [Instr.WellFormed, Instr.wf, regFieldOk, *], rfl⟩)
    | (right; refine ⟨by simp [Instr.WellFormed, Instr.wf, regFieldOk, *], ?_⟩
       have ht := (Host.Outcome.next.inj h).symm
       subst ht
       first
       | (left; exact ⟨_, by simp [memSize] at *; omega, rfl⟩)
       | (right; left; exact ⟨rfl, by assumption, rfl⟩)
       | (right; right
          refine ⟨⟨rfl, rfl, rfl, rfl⟩, ⟨rfl, rfl, rfl, rfl, rfl⟩, ?_, ?_, ?_⟩
          · first | (left; rfl) | (right; exact ⟨_, _, by assumption, rfl⟩)
          · first | (left; rfl) | (right; exact ⟨_, ⟨_, by assumption⟩, rfl, rfl, rfl⟩)
          · first | (left; rfl) | (right; exact ⟨_, rfl, (List.getElem?_eq_some_iff.mp (by assumption)).1, rfl⟩)))

end Sys2Proof.Machine
end

