-- ==== Sys2Proof/Laws/PerInstr.lean ====
section
/-! SUPPORT. Statements for all instructions, one lemma per constructor: the canonical word of an instruction carries its operation's
opcode number, and 0 in bit 16 (R56, R59, R60). -/

namespace Sys2Proof.Laws

/-- Under every opcode map, the word of an instruction selects its own operation and has 0 in bit 16. -/
def CanonicalWord.Statement (i : Instr) : Prop :=
  ∀ m : OpMap, m.wf = true → opOf m (opField (encode m i)) = some (opOfInstr i) ∧ (encode m i).getLsbD 16 = false

/-- The statement from the canonical fields. -/
theorem canonicalWord_of_fields (i : Instr) : CanonicalWord.Statement i :=
  fun m h => ⟨by rw [encode, opField_encodeFields, fieldsOfInstr_op, opOf_opNumber m h], bit16_encodeFields _⟩

theorem CanonicalWord.subl (r1 : RegField) (imm : Imm16) : CanonicalWord.Statement (.subl r1 imm) := canonicalWord_of_fields _
theorem CanonicalWord.addlRegReg (r1 r2 : RegField) : CanonicalWord.Statement (.addlRegReg r1 r2) := canonicalWord_of_fields _
theorem CanonicalWord.addlImmReg (r1 : RegField) (imm : Imm16) : CanonicalWord.Statement (.addlImmReg r1 imm) := canonicalWord_of_fields _
theorem CanonicalWord.imull (r1 r2 : RegField) : CanonicalWord.Statement (.imull r1 r2) := canonicalWord_of_fields _
theorem CanonicalWord.shrl (r1 : RegField) : CanonicalWord.Statement (.shrl r1) := canonicalWord_of_fields _
theorem CanonicalWord.movlRegReg (r1 r2 : RegField) : CanonicalWord.Statement (.movlRegReg r1 r2) := canonicalWord_of_fields _
theorem CanonicalWord.movlDerefReg (r1 r2 : RegField) (imm : Imm16) :
    CanonicalWord.Statement (.movlDerefReg r1 r2 imm) := canonicalWord_of_fields _
theorem CanonicalWord.movlRegDeref (r1 r2 : RegField) (imm : Imm16) :
    CanonicalWord.Statement (.movlRegDeref r1 r2 imm) := canonicalWord_of_fields _
theorem CanonicalWord.movlImmReg (r1 : RegField) (imm : Imm16) : CanonicalWord.Statement (.movlImmReg r1 imm) := canonicalWord_of_fields _
theorem CanonicalWord.cmpl (r1 r2 : RegField) : CanonicalWord.Statement (.cmpl r1 r2) := canonicalWord_of_fields _
theorem CanonicalWord.je (imm : Imm16) : CanonicalWord.Statement (.je imm) := canonicalWord_of_fields _
theorem CanonicalWord.jl (imm : Imm16) : CanonicalWord.Statement (.jl imm) := canonicalWord_of_fields _
theorem CanonicalWord.jle (imm : Imm16) : CanonicalWord.Statement (.jle imm) := canonicalWord_of_fields _
theorem CanonicalWord.jge (imm : Imm16) : CanonicalWord.Statement (.jge imm) := canonicalWord_of_fields _
theorem CanonicalWord.jbe (imm : Imm16) : CanonicalWord.Statement (.jbe imm) := canonicalWord_of_fields _
theorem CanonicalWord.jmp (imm : Imm16) : CanonicalWord.Statement (.jmp imm) := canonicalWord_of_fields _
theorem CanonicalWord.call (imm : Imm16) : CanonicalWord.Statement (.call imm) := canonicalWord_of_fields _
theorem CanonicalWord.ret : CanonicalWord.Statement .ret := canonicalWord_of_fields _
theorem CanonicalWord.pushl (r1 : RegField) : CanonicalWord.Statement (.pushl r1) := canonicalWord_of_fields _
theorem CanonicalWord.popl (r1 : RegField) : CanonicalWord.Statement (.popl r1) := canonicalWord_of_fields _
theorem CanonicalWord.printr (r1 : RegField) : CanonicalWord.Statement (.printr r1) := canonicalWord_of_fields _
theorem CanonicalWord.readr (r1 : RegField) : CanonicalWord.Statement (.readr r1) := canonicalWord_of_fields _

end Sys2Proof.Laws
end

