-- ==== Sys2Proof/Laws/Run.lean ====
section
/-! SUPPORT. When the machine waits for input, and what the console's answer can do in a run. -/

namespace Sys2Proof.Machine

open Sys2Proof

/-- An instruction asks for input exactly when it is a `readr` that passes the register check. -/
theorem asksInput_iff (i : Instr) : asksInput i = true ↔ ∃ r a, i = .readr r ∧ Names r a := by
  cases i <;> simp [asksInput, Names]
  next r => exact ⟨fun h => ⟨⟨r.toNat, h⟩, rfl⟩, fun ⟨a, h⟩ => h ▸ a.isLt⟩

/-- What the fetch finds asks for input exactly when it is the word of such an instruction. -/
theorem fetchedAsks_iff (m : OpMap) (f : Fetched) :
    fetchedAsks m f = true ↔ ∃ w i, f = .word w ∧ decode m w = .instr i ∧ asksInput i = true := by
  cases f with
  | endOfProgram => simp [fetchedAsks]
  | badPc => simp [fetchedAsks]
  | word w =>
    simp only [fetchedAsks]
    cases hd : decode m w <;> simp [hd]

/-- The state of a wait (R80, R140), in the words of the claims. -/
theorem State.awaitsInput_iff (s : State) :
    s.awaitsInput = true ↔
      (∃ w r a, Fetches s w ∧ decode s.opMap w = .instr (.readr r) ∧ Names r a) ∧ s.nextInput = none := by
  simp only [State.awaitsInput, Bool.and_eq_true, decide_eq_true_eq, fetchedAsks_iff, asksInput_iff, Option.isNone_iff_eq_none,
    fetch_eq_word_iff]
  constructor
  · rintro ⟨⟨⟨hl, hr⟩, w, i, ⟨h4, hw⟩, hd, r, a, rfl, ha⟩, hn⟩
    exact ⟨⟨w, r, a, ⟨hl, hr, h4, hw⟩, hd, ha⟩, hn⟩
  · rintro ⟨⟨w, r, a, ⟨hl, hr, h4, hw⟩, hd, ha⟩, hn⟩
    exact ⟨⟨⟨hl, hr⟩, w, .readr r, ⟨h4, hw⟩, hd, r, a, rfl, ha⟩, hn⟩

theorem State.supplyInput_awaits (s : State) (v : Word) (h : s.awaitsInput = true) : s.supplyInput v = some (s.deliver v) :=
  if_pos h

theorem State.supplyInput_idle (s : State) (v : Word) (h : s.awaitsInput = false) : s.supplyInput v = none :=
  if_neg (by simp [h])

/-- The console of a run leaves the state as it is, or answers a `readr` that waits with the next value of `IN`. -/
theorem State.feed_cases (s : State) (q : InputSeq) :
    (s.feed q = s ∧ (s.awaitsInput = false ∨ q.get? s.inPos = none)) ∨
      ∃ v, s.awaitsInput = true ∧ q.get? s.inPos = some v ∧ s.feed q = s.deliver v := by
  unfold State.feed
  cases hq : q.get? s.inPos with
  | none => exact .inl ⟨rfl, .inr rfl⟩
  | some v =>
    cases ha : s.awaitsInput with
    | false => exact .inl ⟨by simp [State.supplyInput_idle s v ha], .inl rfl⟩
    | true => exact .inr ⟨v, rfl, rfl, by simp [State.supplyInput_awaits s v ha]⟩

end Sys2Proof.Machine
end

