-- ==== Sys2Proof/Laws/Step.lean ====
section
/-! SUPPORT. What a step can do, said once, and that the host's probe runs the word it is given. -/

namespace Sys2Proof.Machine

open Sys2Proof

theorem step_stopped (s : State) (hl : s.imem.length ≤ maxInstr) (hr : s.runState ≠ .running) : step s = .next s := by
  rw [step, cycle, if_neg (by omega), if_pos hr, State.stopped]

theorem step_running (s : State) (hl : s.imem.length ≤ maxInstr) (hr : s.runState = .running) :
    step s =
      match fetch s with
      | .endOfProgram => .next (s.halt .haltedEnd)
      | .badPc => fetchFault s
      | .word w =>
        match decode s.opMap w with
        | .unknownOpcode _ => unknownOpcode w s
        | .instr i => exec i s := by
  rw [step, cycle, if_neg (by omega), if_neg (by simp [hr])]
  rfl

/-- The word fetched decodes to an instruction. -/
structure Executes (s : State) (w : Word) (i : Instr) : Prop where
  running : s.runState = .running
  fetched : fetch s = .word w
  decoded : decode s.opMap w = .instr i

theorem step_executes (s : State) (w : Word) (i : Instr) (hl : s.imem.length ≤ maxInstr) (h : Executes s w i) :
    step s = exec i s := by
  rw [step_running s hl h.running, h.fetched]
  simp only [h.decoded]

/-- A next state of a step comes from one of these cases. -/
theorem step_next_cases (s t : State) (h : step s = .next t) :
    s.imem.length ≤ maxInstr ∧
      ((s.runState ≠ .running ∧ t = s) ∨
        (s.runState = .running ∧ fetch s = .endOfProgram ∧ t = s.halt .haltedEnd) ∨
        (s.runState = .running ∧ fetch s = .badPc ∧ t = s.raise .fetchFault s.pc) ∨
        (∃ w, s.runState = .running ∧ fetch s = .word w ∧ opOf s.opMap (opField w) = none ∧ unknownOpcode w s = .next t) ∨
        (∃ w i, Executes s w i ∧ exec i s = .next t)) := by
  by_cases hl : s.imem.length ≤ maxInstr
  swap
  · rw [step, cycle, if_pos (by omega)] at h
    cases h
  refine ⟨hl, ?_⟩
  by_cases hr : s.runState = .running
  swap
  · rw [step_stopped s hl hr] at h
    exact .inl ⟨hr, (Host.Outcome.next.inj h).symm⟩
  rw [step_running s hl hr] at h
  cases hf : fetch s with
  | endOfProgram =>
    rw [hf] at h
    exact .inr (.inl ⟨hr, rfl, (Host.Outcome.next.inj h).symm⟩)
  | badPc =>
    rw [hf] at h
    exact .inr (.inr (.inl ⟨hr, rfl, (Host.Outcome.next.inj h).symm⟩))
  | word w =>
    rw [hf] at h
    cases hd : decode s.opMap w with
    | unknownOpcode n =>
      simp only [hd] at h
      have := ((decode_eq_unknown_iff _ w n).mp hd).1
      exact .inr (.inr (.inr (.inl ⟨w, hr, rfl, this, h⟩)))
    | instr i =>
      simp only [hd] at h
      exact .inr (.inr (.inr (.inr ⟨w, i, ⟨hr, hf, hd⟩, h⟩)))

/-! ### The host's probe -/

theorem getElem?_placeWord (l : List Word) (k : Nat) (w : Word) : (placeWord l k w)[k]? = some w := by
  induction k generalizing l with
  | zero => cases l <;> rfl
  | succ k ih => cases l <;> simpa [placeWord] using ih _

theorem length_placeWord (l : List Word) (k : Nat) (w : Word) : (placeWord l k w).length = max l.length (k + 1) := by
  induction k generalizing l with
  | zero => cases l <;> simp [placeWord]
  | succ k ih => cases l <;> simp [placeWord, ih]

theorem probePc_spec (s : State) : (probePc s).toNat % 4 = 0 ∧ (probePc s).toNat / 4 < maxInstr := by
  unfold probePc
  split
  · assumption
  · decide

/-- The state of the probe fetches the word it was given. -/
theorem fetch_withFetchWord (s : State) (nbits w : Nat) :
    fetch (s.withFetchWord nbits w) = .word (BitVec.ofNat 32 (w % 2 ^ nbits)) := by
  rw [fetch_eq_word_iff]
  exact ⟨(probePc_spec s).1, getElem?_placeWord _ _ _⟩

/-- The next step from the state of the probe runs the instruction the probe's word decodes to. -/
theorem step_withFetchWord (s : State) (nbits w : Nat) (i : Instr) (h : decodeTableWord nbits w = some i) :
    step (s.withFetchWord nbits w) = exec i (s.withFetchWord nbits w) := by
  have hlen : (s.withFetchWord nbits w).imem.length ≤ maxInstr := by
    have h1 : (s.withFetchWord nbits w).imem.length = max (s.imem.take maxInstr).length ((probePc s).toNat / 4 + 1) :=
      length_placeWord _ _ _
    have h2 := (probePc_spec s).2
    have h3 : (s.imem.take maxInstr).length ≤ maxInstr := List.length_take_le _ _
    omega
  refine step_executes _ _ i hlen ⟨rfl, fetch_withFetchWord s nbits w, ?_⟩
  unfold decodeTableWord at h
  split at h
  · next j hj => exact hj.trans (congrArg _ (Option.some.inj h))
  · cases h

end Sys2Proof.Machine
end

