-- ==== Sys2Proof/Tests/Slice0.lean ====
section
/-! SUPPORT. Tests of the model against 95_test_vectors.md, and witnesses for the hypotheses of the statements. Every expected value is
written from the spec: the vector's name stands in each docstring. -/

namespace Sys2Proof.Tests

open Sys2Proof Sys2Proof.Machine

/-! ### Helpers -/

/-- The reset state with a program and some registers set. -/
def start (imem : List Word) (regs : List (RegIdx × Word)) : State :=
  regs.foldl (fun s p => s.setReg p.1 p.2) { State.reset with imem := imem }

/-- The reset state with the one word `w` at `pc`, standing at word index `k` of a program of zero words, and some registers set. -/
def startAt (k : Nat) (w : Word) (regs : List (RegIdx × Word)) : State :=
  (start (List.replicate k 0 ++ [w]) regs).setPc (BitVec.ofNat 32 (4 * k))

/-- Bytes put at consecutive addresses. -/
def withBytes (s : State) : Nat → List Byte → State
  | _, [] => s
  | a, b :: rest => withBytes (s.setMem (s.mem.writeByte a b)) (a + 1) rest

/-- The same state under the other byte order. -/
def big (s : State) : State := { s with dataEndian := .big }

/-- The same state under the lenient policy for unknown opcodes. -/
def lenient (s : State) : State := { s with unknownPolicy := .nop }

/-- An opcode map that differs from the default: `subl` and `readr` at numbers 30 and 31, no operation at 0 and 21. -/
def swappedMap : OpMap :=
  { table := ((((defaultOpMap.table.set 0 none).set 21 none).set 30 (some .subl)).set 31 (some .readr)) }

/-- Something read from the next state of an answer. -/
def look {α : Type} (r : StepResult) (f : State → α) : Option α :=
  match r with
  | .next t => some (f t)
  | .fault _ => none
  | .refused _ => none

/-- The four bytes from an address. -/
def bytesAt (t : State) (a : Nat) : List Byte :=
  [t.mem.readByte a, t.mem.readByte (a + 1), t.mem.readByte (a + 2), t.mem.readByte (a + 3)]

/-- The fault record with the run state and `pc`. -/
def record (t : State) : RunState × BitVec 3 × Word × Word × Word :=
  (t.runState, t.faultCause.code, t.faultPc, t.faultInfo, t.pc)

/-! ### Well-formedness: an ill-formed term for each check (R13, R54) -/

theorem test_wf_subl : (Instr.subl 16 0).wf = true ∧ (Instr.subl 17 0).wf = false := by decide
theorem test_wf_addlRegReg : (Instr.addlRegReg 16 16).wf = true ∧ (Instr.addlRegReg 17 0).wf = false ∧
    (Instr.addlRegReg 0 17).wf = false := by decide
theorem test_wf_addlImmReg : (Instr.addlImmReg 16 0).wf = true ∧ (Instr.addlImmReg 17 0).wf = false := by decide
theorem test_wf_imull : (Instr.imull 16 16).wf = true ∧ (Instr.imull 31 0).wf = false ∧ (Instr.imull 0 31).wf = false := by decide
theorem test_wf_shrl : (Instr.shrl 16).wf = true ∧ (Instr.shrl 17).wf = false := by decide
theorem test_wf_movlRegReg : (Instr.movlRegReg 16 16).wf = true ∧ (Instr.movlRegReg 17 0).wf = false ∧
    (Instr.movlRegReg 0 17).wf = false := by decide
theorem test_wf_movlDerefReg : (Instr.movlDerefReg 16 16 0).wf = true ∧ (Instr.movlDerefReg 17 0 0).wf = false ∧
    (Instr.movlDerefReg 0 17 0).wf = false := by decide
theorem test_wf_movlRegDeref : (Instr.movlRegDeref 16 16 0).wf = true ∧ (Instr.movlRegDeref 17 0 0).wf = false ∧
    (Instr.movlRegDeref 0 17 0).wf = false := by decide
theorem test_wf_movlImmReg : (Instr.movlImmReg 16 0).wf = true ∧ (Instr.movlImmReg 17 0).wf = false := by decide
theorem test_wf_cmpl : (Instr.cmpl 16 16).wf = true ∧ (Instr.cmpl 17 0).wf = false ∧ (Instr.cmpl 0 17).wf = false := by decide
theorem test_wf_pushl : (Instr.pushl 16).wf = true ∧ (Instr.pushl 17).wf = false := by decide
theorem test_wf_popl : (Instr.popl 16).wf = true ∧ (Instr.popl 17).wf = false := by decide
theorem test_wf_printr : (Instr.printr 16).wf = true ∧ (Instr.printr 31).wf = false := by decide
theorem test_wf_readr : (Instr.readr 16).wf = true ∧ (Instr.readr 17).wf = false := by decide
theorem test_wf_no_register : (Instr.je 0).wf = true ∧ (Instr.jl 0).wf = true ∧ (Instr.jle 0).wf = true ∧ (Instr.jge 0).wf = true ∧
    (Instr.jbe 0).wf = true ∧ (Instr.jmp 0).wf = true ∧ (Instr.call 0).wf = true ∧ Instr.ret.wf = true := by decide

/-! ### Decoding: one word per row, its fields written bit by bit from R51 and R56 (opcode, r1, r2, bit 16, immediate) -/

theorem test_decode_subl : decode defaultOpMap 0b00000_00011_00000_0_0000000000000001 = .instr (.subl 3 1) := by decide
theorem test_decode_addlRegReg : decode defaultOpMap 0b00001_00000_00001_0_0000000000000000 = .instr (.addlRegReg 0 1) := by decide
theorem test_decode_addlImmReg : decode defaultOpMap 0b00010_00010_00000_0_0000000000000001 = .instr (.addlImmReg 2 1) := by decide
theorem test_decode_imull : decode defaultOpMap 0b00011_00010_00100_0_0000000000000000 = .instr (.imull 2 4) := by decide
theorem test_decode_shrl : decode defaultOpMap 0b00100_00001_11111_1_1111111111111111 = .instr (.shrl 1) := by decide
theorem test_decode_movlRegReg : decode defaultOpMap 0b00101_00010_01001_0_0000000000000000 = .instr (.movlRegReg 2 9) := by decide
theorem test_decode_movlDerefReg : decode defaultOpMap 0b00110_00110_00010_0_0000000000000100 = .instr (.movlDerefReg 6 2 4) := by decide
theorem test_decode_movlRegDeref : decode defaultOpMap 0b00111_00000_00110_0_1111111111111000 = .instr (.movlRegDeref 0 6 (-8)) := by decide
theorem test_decode_movlImmReg : decode defaultOpMap 0b01000_00001_00000_0_1111111111111111 = .instr (.movlImmReg 1 (-1)) := by decide
theorem test_decode_cmpl : decode defaultOpMap 0b01001_00000_00001_0_0000000000000000 = .instr (.cmpl 0 1) := by decide
theorem test_decode_je : decode defaultOpMap 0b01010_00000_00000_0_0000000000001000 = .instr (.je 8) := by decide
theorem test_decode_jl : decode defaultOpMap 0b01011_00000_00000_0_1111111111111000 = .instr (.jl (-8)) := by decide
theorem test_decode_jle : decode defaultOpMap 0b01100_00000_00000_0_1111111111110100 = .instr (.jle (-12)) := by decide
theorem test_decode_jge : decode defaultOpMap 0b01101_00000_00000_0_0000000000001100 = .instr (.jge 12) := by decide
theorem test_decode_jbe : decode defaultOpMap 0b01110_00000_00000_0_0000000000010000 = .instr (.jbe 16) := by decide
theorem test_decode_jmp : decode defaultOpMap 0b01111_00000_00000_0_1111111111111000 = .instr (.jmp (-8)) := by decide
theorem test_decode_call : decode defaultOpMap 0b10000_00000_00000_0_0000000000001100 = .instr (.call 12) := by decide
theorem test_decode_ret : decode defaultOpMap 0b10001_11111_11111_1_0000000000000000 = .instr .ret := by decide
theorem test_decode_pushl : decode defaultOpMap 0b10010_00101_00000_0_0000000000000000 = .instr (.pushl 5) := by decide
theorem test_decode_popl : decode defaultOpMap 0b10011_00111_00000_0_0000000000000000 = .instr (.popl 7) := by decide
theorem test_decode_printr : decode defaultOpMap 0b10100_00001_00000_0_0000000000000000 = .instr (.printr 1) := by decide
theorem test_decode_readr : decode defaultOpMap 0b10101_00000_00000_0_0000000000000000 = .instr (.readr 0) := by decide
theorem test_decode_unknown : decode defaultOpMap 0b10110_00000_00000_0_0000000000000000 = .unknownOpcode 22 ∧
    decode defaultOpMap 0b11111_11111_11111_1_1111111111111111 = .unknownOpcode 31 := by decide

/-- The words of the table of 95_test_vectors.md section 2.1, arithmetic and data movement. -/
theorem test_encode_listed_registers :
    encode defaultOpMap (.subl 3 1) = 0x00C00001 ∧ encode defaultOpMap (.addlRegReg 0 1) = 0x08020000 ∧ encode defaultOpMap (.addlImmReg 2 1) = 0x10800001 ∧
      encode defaultOpMap (.imull 2 4) = 0x18880000 ∧ encode defaultOpMap (.shrl 1) = 0x20400000 ∧ encode defaultOpMap (.movlRegReg 2 9) = 0x28920000 ∧
      encode defaultOpMap (.movlDerefReg 6 2 4) = 0x31840004 ∧ encode defaultOpMap (.movlRegDeref 0 6 (-8)) = 0x380CFFF8 ∧
      encode defaultOpMap (.movlImmReg 1 (-1)) = 0x4040FFFF ∧ encode defaultOpMap (.cmpl 0 1) = 0x48020000 := by decide

/-- The words of the table of 95_test_vectors.md section 2.1, control flow, stack and console. -/
theorem test_encode_listed_control :
    encode defaultOpMap (.je 8) = 0x50000008 ∧ encode defaultOpMap (.jl (-8)) = 0x5800FFF8 ∧ encode defaultOpMap (.jle (-12)) = 0x6000FFF4 ∧
      encode defaultOpMap (.jge 12) = 0x6800000C ∧ encode defaultOpMap (.jbe 16) = 0x70000010 ∧ encode defaultOpMap (.jmp (-8)) = 0x7800FFF8 ∧
      encode defaultOpMap (.call 12) = 0x8000000C ∧ encode defaultOpMap .ret = 0x88000000 ∧ encode defaultOpMap (.pushl 5) = 0x91400000 ∧
      encode defaultOpMap (.popl 7) = 0x99C00000 ∧ encode defaultOpMap (.printr 1) = 0xA0400000 ∧ encode defaultOpMap (.readr 0) = 0xA8000000 := by decide

/-- S2 of 95_test_vectors.md: the encoder gives 0 in bit 16 for an unknown opcode too. -/
theorem test_encode_fields : encodeFields ⟨31, 31, 31, 0xFFFF⟩ = 0xFFFEFFFF ∧ encodeFields ⟨21, 16, 16, 0xFFFE⟩ = 0xAC20FFFE := by
  decide

/-- The bytes of a little-endian image (95_test_vectors.md section 2.1, `subl r3, 1` and `movl_reg_deref r0, r6, -8`). -/
theorem test_image_words :
    imageWords .little [0x01, 0x00, 0xC0, 0x00, 0xF8, 0xFF, 0x0C, 0x38] = some [0x00C00001, 0x380CFFF8] ∧
      imageWords .little [0x01, 0x00, 0xC0] = none := by decide

/-- R61's notation, as 95_test_vectors.md section 2.1 writes it. -/
theorem test_assembly_text : assemblyText (.movlRegDeref 0 6 (-8)) = "movl_reg_deref r0, r6, -8" ∧ assemblyText .ret = "ret" := by
  decide

/-! ### Arithmetic (95_test_vectors.md section 2.2) -/

/-- V-ARI-7. -/
theorem test_subl_large : look (step (start [0x00C07FFF] [(3, 0x80000000)])) (fun t => (t.reg 3, t.pc, t.flags)) =
    some (0x7FFF8001, 4, 0) := by decide
/-- V-ARI-4. -/
theorem test_subl_negative : look (step (start [0x00C08000] [])) (fun t => t.reg 3) = some 0x00008000 := by decide
/-- V-ARI-16. -/
theorem test_addlRegReg_wraps : look (step (start [0x08020000] [(0, 0xFFFFFFFF), (1, 0xFFFFFFFF)]))
    (fun t => (t.reg 0, t.reg 1, t.pc)) = some (0xFFFFFFFF, 0xFFFFFFFE, 4) := by decide
/-- V-ARI-12. -/
theorem test_addlRegReg_same : look (step (start [0x08840000] [(2, 0x40000000)])) (fun t => t.reg 2) = some 0x80000000 := by decide
/-- V-ARI-19. -/
theorem test_addlImmReg_negative : look (step (start [0x10408000] [])) (fun t => (t.reg 1, t.pc)) = some (0xFFFF8000, 4) := by decide
/-- V-ARI-33. -/
theorem test_imull_low : look (step (start [0x18880000] [(2, 0x12345678), (4, 0x9ABCDEF0)])) (fun t => (t.reg 2, t.reg 4)) =
    some (0x12345678, 0x242D2080) := by decide
/-- V-ARI-26. -/
theorem test_imull_signed : look (step (start [0x18880000] [(2, 0xFFFFFFFF), (4, 7)])) (fun t => (t.reg 4, t.flags)) =
    some (0xFFFFFFF9, 0) := by decide
/-- V-ARI-40. -/
theorem test_shrl_one : look (step (start [0x207FFFFF] [(1, 0x0000000D)])) (fun t => (t.reg 1, t.pc)) = some (6, 4) := by decide
/-- V-ARI-38. -/
theorem test_shrl_logical : look (step (start [0x20400000] [(1, 0xFFFFFFFF)])) (fun t => t.reg 1) = some 0x7FFFFFFF := by decide

/-! ### Data movement (95_test_vectors.md section 2.3) -/

/-- V-MOV-1. -/
theorem test_movlRegReg : look (step (start [0x28920000] [(2, 0xDEADBEEF)])) (fun t => (t.reg 2, t.reg 9, t.pc)) =
    some (0xDEADBEEF, 0xDEADBEEF, 4) := by decide
/-- V-MOV-6. -/
theorem test_movlRegReg_flags : look (step (start [0x28200000] [(0, 0xFFFFFFFF)])) (fun t => t.flags) = some 0xFFFFFFFF := by decide
/-- V-MOV-17, and its reversal under `DATA_ENDIAN = big`. -/
theorem test_movlDerefReg_misaligned :
    (look (step (withBytes (start [0x30440001] [(1, 0x64)]) 100 [0x11, 0x22, 0x33, 0x44, 0x55, 0x66, 0x77, 0x88])) fun t => t.reg 2) =
        some 0x55443322 ∧
      (look (step (big (withBytes (start [0x30440001] [(1, 0x64)]) 100 [0x11, 0x22, 0x33, 0x44, 0x55, 0x66, 0x77, 0x88])))
          fun t => t.reg 2) = some 0x22334455 := by decide
/-- V-MOV-15. -/
theorem test_movlDerefReg_faults : look (step (start [0x31840000] [])) record = some (.faulted, 4, 0, 0x400, 0) := by decide
/-- V-FLT-27, its third instruction: the last legal word, -1 stored at 1020. -/
theorem test_movlRegDeref_top : look (step (start [0x38020000] [(0, 0xFFFFFFFF), (1, 1020)])) (fun t => (bytesAt t 1020, t.pc)) =
    some ([0xFF, 0xFF, 0xFF, 0xFF], 4) := by decide
/-- V-FLT-26, its second instruction: one byte past the last legal address. -/
theorem test_movlRegDeref_faults : look (step (start [0x38020000] [(1, 1021)])) (fun t => (record t, t.mem)) =
    some ((.faulted, 4, 0, 0x3FD, 0), []) := by decide
/-- V-MOV-9. -/
theorem test_movlImmReg_negative : look (step (start [0x40408000] [])) (fun t => (t.reg 1, t.pc)) = some (0xFFFF8000, 4) := by decide
/-- V-FLT-5. -/
theorem test_movlImmReg_register17 : look (step (start [0x44400001] [])) record = some (.faulted, 3, 0, 0x44400001, 0) := by decide

/-! ### Comparison and branches (95_test_vectors.md section 2.4) -/

/-- V-CMP-1. -/
theorem test_cmpl_clears : look (step (start [0x48020000] [(0, 5), (1, 3), (16, 0xFFFFFFFF)])) (fun t => (t.flags, t.pc)) =
    some (0x81, 4) := by decide
/-- V-CMP-3. -/
theorem test_cmpl_flags_operand : look (step (start [0x4C000000] [(16, 0x40)])) (fun t => t.flags) = some 0x81 := by decide
/-- V-BR-3. -/
theorem test_je_back : look (step (startAt 10 0x5000FFD8 [(16, 0x40)])) (fun t => t.pc) = some 0 := by decide
/-- V-BR-2. -/
theorem test_je_falls : look (step (startAt 10 0x50000008 [])) (fun t => t.pc) = some 44 := by decide
/-- V-BR-11. -/
theorem test_jl_far : look (step (startAt 10 0x58008000 [(16, 0x80)])) (fun t => (t.pc, t.runState)) =
    some (0xFFFF8028, .running) := by decide
/-- The branch table's row 0x880, column `jl`. -/
theorem test_jl_falls : look (step (startAt 10 0x5800FFF8 [(16, 0x880)])) (fun t => t.pc) = some 44 := by decide
/-- The branch table's row 0x800, column `jle`. -/
theorem test_jle_taken : look (step (startAt 10 0x60000010 [(16, 0x800)])) (fun t => t.pc) = some 56 := by decide
/-- The branch table's row 0x01, column `jle`. -/
theorem test_jle_falls : look (step (startAt 10 0x60000010 [(16, 0x01)])) (fun t => t.pc) = some 44 := by decide
/-- The branch table's row 0x00, column `jge`. -/
theorem test_jge_taken : look (step (startAt 10 0x6800000C [])) (fun t => t.pc) = some 52 := by decide
/-- The branch table's row 0xC0, column `jge`. -/
theorem test_jge_falls : look (step (startAt 10 0x6800000C [(16, 0xC0)])) (fun t => t.pc) = some 44 := by decide
/-- The branch table's row 0x81, column `jbe`. -/
theorem test_jbe_taken : look (step (startAt 10 0x70000010 [(16, 0x81)])) (fun t => t.pc) = some 56 := by decide
/-- The branch table's row 0xFFFFF73E, column `jbe`. -/
theorem test_jbe_falls : look (step (startAt 10 0x70000010 [(16, 0xFFFFF73E)])) (fun t => t.pc) = some 44 := by decide
/-- V-BR-4. -/
theorem test_jmp_back : look (step (startAt 10 0x7800FFF8 [])) (fun t => t.pc) = some 32 := by decide
/-- V-BR-8. -/
theorem test_jmp_wraps : look (step (startAt 10 0x7800FFD4 [])) (fun t => t.pc) = some 0xFFFFFFFC := by decide

/-! ### Call, return, push, pop (95_test_vectors.md section 2.5) -/

/-- V-STK-1. -/
theorem test_call : look (step (startAt 2 0x8000000C [])) (fun t => (t.sp, bytesAt t 1020, t.pc)) =
    some (0x3FC, [0x0C, 0, 0, 0], 20) := by decide
/-- V-STK-4. -/
theorem test_call_full : look (step (startAt 4 0x80000000 [(6, 0)])) (fun t => (record t, t.sp)) =
    some ((.faulted, 4, 16, 0xFFFFFFFC, 16), 0) := by decide
/-- V-STK-15. -/
theorem test_ret_misaligned : look (step (withBytes (startAt 5 0x88000000 [(6, 0x3FA)]) 1018 [0x34, 0x12])) (fun t => (t.sp, t.pc)) =
    some (0x3FE, 0x1234) := by decide
/-- V-STK-9. -/
theorem test_ret_halts : look (step (startAt 5 0x88000000 [])) (fun t => (t.runState, t.pc, t.sp)) =
    some (.haltedRet, 20, 0x400) := by decide
/-- V-STK-17. -/
theorem test_pushl_sp : look (step (start [0x91800000] [])) (fun t => (t.sp, bytesAt t 1020, t.pc)) =
    some (0x3FC, [0xFC, 0x03, 0, 0], 4) := by decide
/-- V-STK-22. -/
theorem test_pushl_misaligned : look (step (start [0x90000000] [(0, 0x01020304), (6, 0x3FF)])) (fun t => (t.sp, bytesAt t 1019)) =
    some (0x3FB, [4, 3, 2, 1]) := by decide
/-- V-STK-26. -/
theorem test_popl_sp : look (step (withBytes (start [0x99800000] [(6, 0x3FC)]) 1020 [0, 2, 0, 0])) (fun t => (t.sp, t.pc)) =
    some (0x204, 4) := by decide
/-- V-STK-28. -/
theorem test_popl_flags : look (step (withBytes (start [0x9C000000] [(6, 0x3F8)]) 1016 [0x81, 0, 0, 0])) (fun t => (t.flags, t.sp)) =
    some (0x81, 0x3FC) := by decide

/-! ### Console (95_test_vectors.md section 2.6) -/

/-- V-IO-2. -/
theorem test_printr : look (step (start [0xA0400000] [(1, 0xFFFFFFFF)])) (fun t => (t.out, t.pc)) = some ([0xFFFFFFFF], 4) := by decide
/-- V-IO-11. -/
theorem test_printr_register31 : look (step (start [0xA7C00000] [])) (fun t => (record t, t.out)) =
    some ((.faulted, 3, 0, 0xA7C00000, 0), []) := by decide
/-- V-IO-8. -/
theorem test_readr_sp : look (step ((start [0xA9800000] []).deliver 512)) (fun t => (t.sp, t.inPos, t.pc)) =
    some (0x200, 1, 4) := by decide
/-- V-IO-7. -/
theorem test_readr_waits : look (step (start [0xA8000000] [])) (fun t => t) = some (start [0xA8000000] []) := by decide

/-! ### Faults, dispatch and halting (95_test_vectors.md section 2.7) -/

/-- V-FLT-3. -/
theorem test_unknown_faults : look (step (start [0xFFFFFFFF] [])) record = some (.faulted, 2, 0, 0xFFFFFFFF, 0) := by decide
/-- V-FLT-4. -/
theorem test_unknown_nop : look (step (lenient (start [0xF8000000] []))) record = some (.running, 0, 0, 0, 4) := by decide
/-- V-FLT-10. -/
theorem test_register_before_memory : look (step (start [0x31A80000] [])) record = some (.faulted, 3, 0, 0x31A80000, 0) := by decide
/-- V-IO-10. -/
theorem test_register_before_wait : look (step (start [0xAC400000] [])) record = some (.faulted, 3, 0, 0xAC400000, 0) := by decide
/-- V-FLT-12. -/
theorem test_empty_program : look (step State.reset) record = some (.haltedEnd, 0, 0, 0, 0) := by decide
/-- V-FLT-21, after its first step. -/
theorem test_fetch_misaligned : look (step ((start [0x78000006, 0x88000000] []).setPc 6)) record =
    some (.faulted, 1, 6, 6, 6) := by decide
/-- V-FLT-23, after its first step: past the sentinel is a fault. -/
theorem test_fetch_past_end : look (step ((start [0x7800000C, 0x88000000] []).setPc 12)) record =
    some (.faulted, 1, 12, 12, 12) := by decide
/-- R20: a terminal state takes no step. -/
theorem test_terminal : look (step ((start [0x40000005] []).halt .haltedRet)) (fun t => (t.runState, t.pc, t.reg 0)) =
    some (.haltedRet, 0, 0) := by decide

/-! ### The opcode map, the host and the run -/

/-- R56: a different assignment changes which number selects an operation, and nothing else. -/
theorem test_other_opMap :
    decode swappedMap 0xF0C00001 = .instr (.subl 3 1) ∧ encode swappedMap (.subl 3 1) = 0xF0C00001 ∧
      decode swappedMap 0x00C00001 = .unknownOpcode 0 ∧
      look (step { start [0xF0C00001] [(3, 10)] with opMap := swappedMap }) (fun t => (t.reg 3, t.pc)) = some (9, 4) := by decide
/-- R177: nothing was asked for by a running `movl_imm_reg`, a halted machine, a faulted one, or a `readr` whose value is there. -/
theorem test_no_answer_unasked :
    (start [0x40000005] []).supplyInput 7 = none ∧ ((start [0xA8000000] []).halt .haltedRet).supplyInput 7 = none ∧
      ((start [0xA8000000] []).raise .fetchFault 0).supplyInput 7 = none ∧ ((start [0xA8000000] []).deliver 1).supplyInput 7 = none ∧
      (start [0xAC400000] []).supplyInput 7 = none := by decide
/-- Two `readr` over an infinite `IN` (10, 11, 12, ...). -/
theorem test_infinite_input :
    look (RunArgs.run { imem := [0xA8000000, 0xA8400000], input := .infinite fun k => BitVec.ofNat 32 (k + 10) } 2)
      (fun t => (t.reg 0, t.reg 1, t.inPos, t.input)) = some (10, 11, 2, [10, 11]) := by decide
/-- The same over the finite `IN` [10]: the second `readr` waits. -/
theorem test_finite_input :
    look (RunArgs.run { imem := [0xA8000000, 0xA8400000], input := .finite [10] } 3)
      (fun t => (t.reg 0, t.inPos, t.pc, t.runState)) = some (10, 1, 4, .running) := by decide

/-! ### The host's two questions -/

theorem test_table_word : decodeTableWord 32 0x00C00001 = some (.subl 3 1) ∧ decodeTableWord 32 0xB0000000 = none := by decide
theorem test_probe_runs : look (step (State.reset.withFetchWord 32 0x40000005)) (fun t => (t.reg 0, t.pc)) = some (5, 4) := by decide

/-! ### Witnesses: states and operands that meet the hypotheses of each statement, at the boundaries of its clauses -/

/-- `IgnoredBitsDoNotChangeDecoding`: V-ARI-40's word and the canonical one differ in every ignored bit set. -/
theorem witness_IgnoredBitsDoNotChangeDecoding :
    opOf defaultOpMap (opField 0x207FFFFF) = some .shrl ∧ (0x207FFFFF : Word) &&& usedBits .shrl = 0x20400000 &&& usedBits .shrl ∧
      (0x207FFFFF : Word) ≠ 0x20400000 := by decide

/-- `ImageIsCutIntoItsWords`, the second clause: lengths 1 and 7. -/
theorem witness_ImageIsCutIntoItsWords :
    ([0x01] : List Byte).length % 4 ≠ 0 ∧ ([1, 2, 3, 4, 5, 6, 7] : List Byte).length % 4 ≠ 0 := by decide

/-- `StepRunsDecodedInstruction`, at the last word of a program and at its first. -/
theorem witness_StepRunsDecodedInstruction :
    (Fetches (startAt 2 0x8000000C []) 0x8000000C ∧ decode defaultOpMap 0x8000000C = .instr (.call 12)) ∧
      Fetches (start [0x40000005] []) 0x40000005 ∧ decode defaultOpMap 0x40000005 = .instr (.movlImmReg 0 5) := by
  unfold Fetches
  decide

/-- `UnknownOpcodeFollowsPolicy`: the smallest and the largest unknown word, one under each policy. -/
theorem witness_UnknownOpcodeFollowsPolicy :
    (Fetches (start [0xB0000000] []) 0xB0000000 ∧ opOf (start [0xB0000000] []).opMap (opField 0xB0000000) = none ∧
        (start [0xB0000000] []).unknownPolicy = .fault) ∧
      Fetches (lenient (start [0xFFFFFFFF] [])) 0xFFFFFFFF ∧
        opOf (lenient (start [0xFFFFFFFF] [])).opMap (opField 0xFFFFFFFF) = none ∧
        (lenient (start [0xFFFFFFFF] [])).unknownPolicy = .nop := by
  unfold Fetches
  decide

/-- `BadRegisterFieldRaisesRegIndexFault`: V-FLT-5 (register 17) and V-FLT-10 (the address is out of range too). -/
theorem witness_BadRegisterFieldRaisesRegIndexFault :
    (Fetches (start [0x44400001] []) 0x44400001 ∧ decode defaultOpMap 0x44400001 = .instr (.movlImmReg 17 1) ∧
        ¬ (Instr.movlImmReg 17 1).WellFormed) ∧
      Fetches (start [0x31A80000] []) 0x31A80000 ∧ decode defaultOpMap 0x31A80000 = .instr (.movlDerefReg 6 20 0) ∧
        ¬ (Instr.movlDerefReg 6 20 0).WellFormed := by
  unfold Fetches
  decide

/-- `BadPcRaisesFetchFault`: off the grid inside the program, and the first aligned `pc` past the sentinel. -/
theorem witness_BadPcRaisesFetchFault :
    (((startAt 1 0 []).setPc 1).imem.length ≤ maxInstr ∧ ((startAt 1 0 []).setPc 1).runState = .running ∧
        ((startAt 1 0 []).setPc 1).pc.toNat % 4 ≠ 0) ∧
      ((startAt 1 0 []).setPc 12).imem.length ≤ maxInstr ∧ ((startAt 1 0 []).setPc 12).runState = .running ∧
        4 * ((startAt 1 0 []).setPc 12).imem.length < ((startAt 1 0 []).setPc 12).pc.toNat := by decide

/-- `SentinelHaltsAtEnd`: the reset state, and the end of a program of two words. -/
theorem witness_SentinelHaltsAtEnd :
    (State.reset.imem.length ≤ maxInstr ∧ State.reset.runState = .running ∧ State.reset.pc.toNat = 4 * State.reset.imem.length) ∧
      ((startAt 1 0 []).setPc 8).imem.length ≤ maxInstr ∧ ((startAt 1 0 []).setPc 8).runState = .running ∧
        ((startAt 1 0 []).setPc 8).pc.toNat = 4 * ((startAt 1 0 []).setPc 8).imem.length := by decide

/-- `HaltsInExactlyTwoWays`: each halt is reached from a running state. -/
theorem witness_HaltsInExactlyTwoWays :
    (State.reset.runState = .running ∧ step State.reset = .next { State.reset with runState := .haltedEnd }) ∧
      (start [0x88000000] []).runState = .running ∧
        step (start [0x88000000] []) = .next { start [0x88000000] [] with runState := .haltedRet } := ⟨⟨rfl, rfl⟩, rfl, rfl⟩

/-- The right-hand sides of `HaltsInExactlyTwoWays` hold there: the sentinel, and a `ret` fetched at `x[6] = 1024`. -/
theorem witness_HaltsInExactlyTwoWays_causes :
    State.reset.pc.toNat = 4 * State.reset.imem.length ∧ Fetches (start [0x88000000] []) 0x88000000 ∧
      decode defaultOpMap 0x88000000 = .instr .ret ∧ (start [0x88000000] []).reg 6 = 1024 := by
  unfold Fetches
  decide

/-- `TerminalStatesStay`: one state of each terminal kind. -/
theorem witness_TerminalStatesStay :
    State.reset.imem.length ≤ maxInstr ∧ (State.reset.halt .haltedRet).runState ≠ .running ∧
      (State.reset.halt .haltedEnd).runState ≠ .running ∧ (State.reset.raise .fetchFault 0).runState ≠ .running := by decide

/-- `StepAnswersNextState`: a program within the bound, and one past it. -/
theorem witness_StepAnswersNextState :
    State.reset.imem.length ≤ maxInstr ∧
      maxInstr < ({ State.reset with imem := List.replicate 1073741824 0 } : State).imem.length := by
  refine ⟨by decide, ?_⟩
  rw [List.length_replicate]
  decide

/-- `FaultsArePrecise`: a running state whose step ends in a fault. -/
theorem witness_FaultsArePrecise :
    (start [0xB0000000] []).runState = .running ∧
      step (start [0xB0000000] []) = .next ((start [0xB0000000] []).raise .decodeError 0xB0000000) ∧
      ((start [0xB0000000] []).raise .decodeError 0xB0000000).runState = .faulted := ⟨rfl, rfl, rfl⟩

/-- `FetchedPcPlusFourNeverWraps`: a state that fetches. -/
theorem witness_FetchedPcPlusFourNeverWraps : Fetches (startAt 10 0x78000000 []) 0x78000000 := by
  unfold Fetches
  decide

/-- `StepKeepsParameters`, `StepAnswersNextState`, `InvariantKeptByStep`: a state with the invariant and its next state. -/
theorem witness_InvariantKeptByStep : State.reset.Inv ∧ step State.reset = .next (State.reset.halt .haltedEnd) :=
  ⟨⟨by decide, by decide, by decide, by decide, rfl, rfl, rfl⟩, rfl⟩

/-- `InvariantKeptByStep`, its other clauses: a step of a run over an infinite `IN`, and both moves of the host. -/
theorem witness_InvariantKeptByStep_run :
    (start [0xA8000000] []).Inv ∧
      runStep (.infinite fun _ => 7) (start [0xA8000000] []) =
        .next ((((start [0xA8000000] []).deliver 7).setReg 0 7).consume.advance) ∧
      (start [0xA8000000] []).hostMove (.answer 7) = some ((start [0xA8000000] []).deliver 7) ∧
      (start [0xA8000000] []).hostMove .reset = some (start [0xA8000000] []) :=
  ⟨⟨by decide, by decide, by decide, by decide, rfl, rfl, rfl⟩, rfl, rfl, rfl⟩

/-- `InvariantHoldsAtStart`: a program within the bound, an opcode map that is not the default one, and an infinite `IN`. -/
theorem witness_InvariantHoldsAtStart :
    ([0x88000000] : List Word).length ≤ maxInstr ∧ swappedMap.wf = true ∧
      ({ imem := [0x88000000], input := .infinite fun _ => 0 } : RunArgs).ProgramLoaded := by
  unfold RunArgs.ProgramLoaded
  decide

/-- `DecodeOfEncodeIsIdentity`, `IgnoredBitsDoNotChangeDecoding`: an opcode map that is not the default one. -/
theorem witness_DecodeOfEncodeIsIdentity : swappedMap.wf = true ∧ swappedMap ≠ defaultOpMap ∧
    opOf swappedMap (opField 0xF87FFFFF) = some .readr := by decide

/-- `HostAnswersOnlyWaitingReadr`: a `readr` that waits. -/
theorem witness_HostAnswersOnlyWaitingReadr :
    Fetches (start [0xA8000000] []) 0xA8000000 ∧ decode (start [0xA8000000] []).opMap 0xA8000000 = .instr (.readr 0) ∧ Names 0 0 ∧
      (start [0xA8000000] []).input.length ≤ (start [0xA8000000] []).inPos := by
  unfold Fetches Names
  decide

/-- `RunTakesInputInOrder`: a `readr` over a finite `IN` with a value left, over one that is exhausted, and over an infinite one. -/
theorem witness_RunTakesInputInOrder :
    (start [0xA8000000] []).InputFrom (.finite [13]) ∧ (start [0xA8000000] []).InputFrom (.finite []) ∧
      (start [0xA8000000] []).InputFrom (.infinite fun k => BitVec.ofNat 32 k) ∧
      (InputSeq.finite [13]).get? (start [0xA8000000] []).inPos = some 13 ∧
      (InputSeq.finite []).get? (start [0xA8000000] []).inPos = none ∧
      Fetches (start [0xA8000000] []) 0xA8000000 ∧ decode (start [0xA8000000] []).opMap 0xA8000000 = .instr (.readr 0) ∧ Names 0 0 :=
  have h (q : InputSeq) : (start [0xA8000000] []).InputFrom q :=
    ⟨by decide, fun k v e => absurd (show ([] : List Word)[k]? = some v from e) (by simp)⟩
  ⟨h _, h _, h _, rfl, rfl, by unfold Fetches; decide, by decide, rfl⟩

/-- `RunTakesInputInOrder`: a step at which nothing is asked for. -/
theorem witness_RunTakesInputInOrder_idle : (start [0x40000005] []).awaitsInput = false := by decide

/-- A program's state in which every kind of the invariant's clauses says something: a faulted state that meets it. -/
theorem witness_Inv_faulted : ((start [0xB0000000] []).raise .decodeError 0xB0000000).Inv :=
  ⟨by decide, by decide, by decide, by decide, rfl, rfl, by decide⟩

/-- The register clauses of the per-instruction statements: fields 0 and 16 name registers; 17 and 31 name none, with the word of the
fault at `pc`. -/
theorem witness_register_fields :
    Names 0 0 ∧ Names 6 6 ∧ Names 16 16 ∧ 16 < (17 : RegField).toNat ∧ 16 < (31 : RegField).toNat ∧
      (start [0x04400001] []).instrWord = some 0x04400001 := by
  unfold Names
  decide

/-- `SublSubtractsImmediate`, `AddlImmRegAddsImmediate`, `ShrlHalvesUnsigned`, `MovlImmRegLoadsImmediate`, `PrintrEmitsRegister`: both
clauses for one register field. -/
theorem witness_one_register_clauses :
    (Names 16 16) ∧ 16 < (17 : RegField).toNat ∧ (start [0x20400000 ||| 0x04000000] []).instrWord = some 0x24400000 := by
  unfold Names
  decide

/-- `AddlRegRegAddsIntoSecond`, `ImullKeepsLowProduct`, `MovlRegRegCopies`, `CmplSetsFlagsOfDifference`: both clauses for two register
fields, the bad one first or second. -/
theorem witness_two_register_clauses :
    (Names 16 16 ∧ Names 0 0) ∧ (16 < (17 : RegField).toNat ∨ 16 < (0 : RegField).toNat) ∧
      (16 < (0 : RegField).toNat ∨ 16 < (17 : RegField).toNat) ∧ (start [0x08220000] []).instrWord = some 0x08220000 := by
  unfold Names
  decide

/-- `MovlDerefRegLoads`: addresses 1020 and 1021, reached from the base register 1. -/
theorem witness_MovlDerefRegLoads :
    (Names 1 1 ∧ Names 2 2 ∧ (effAddr (start [] [(1, 1024)]) 1 (-4)).toNat = 1020) ∧
      (effAddr (start [] [(1, 1024)]) 1 (-3)).toNat = 1021 ∧ (effAddr (start [] []) 1 (-1)).toNat = 4294967295 := by
  unfold Names
  decide

/-- `MovlRegDerefStores`: addresses 0, 1020 and 1021. -/
theorem witness_MovlRegDerefStores :
    (Names 0 0 ∧ Names 6 6 ∧ (effAddr (start [] []) 6 (-4)).toNat = 1020) ∧ (effAddr (start [] []) 6 (-1024)).toNat = 0 ∧
      (effAddr (start [] []) 6 (-3)).toNat = 1021 := by
  unfold Names
  decide

/-- `StoreThenLoadReturnsValue`: a misaligned address, the loaded register the base itself. -/
theorem witness_StoreThenLoadReturnsValue :
    Names 0 0 ∧ Names 6 6 ∧ Names 6 6 ∧ (effAddr (big (start [] [(0, 0x01020304)])) 6 (-5)).toNat ≤ 1020 := by
  unfold Names
  decide

/-- `MemoryChangesOnlyWhereStored`: a storing and a storeless instruction, and bytes at the two edges of the stored word. -/
theorem witness_MemoryChangesOnlyWhereStored :
    storeAddr (.pushl 0) (start [] [(6, 512)]) = some 508 ∧ storeAddr (.popl 0) (start [] []) = none ∧
      storeAddr (.movlRegDeref 0 17 0) (start [] []) = none ∧
      look (exec (.pushl 0) (start [] [(0, 0xFFFFFFFF), (6, 512)])) (fun t => t.mem.map (·.1)) = some [508, 509, 510, 511] := by
  decide

/-- `OnlyTableRegistersWritten`: an instruction that answers a next state, and a register its row does not mark. -/
theorem witness_OnlyTableRegistersWritten :
    exec (.subl 3 1) (start [] []) = .next ((start [] []).setReg 3 0xFFFFFFFF).advance ∧ ¬ WritesReg (.subl 3 1) 4 := by
  refine ⟨rfl, ?_⟩
  rintro (⟨r, hr, hn⟩ | h)
  · cases hr
    exact absurd hn (by unfold Names; decide)
  · cases h

/-- `OnlyTableRegistersRead`: a register the row does not mark read, written or not. -/
theorem witness_OnlyTableRegistersRead :
    readsReg (.movlImmReg 3 1) 3 = false ∧ readsReg (.subl 3 1) 4 = false ∧
      exec (.subl 3 1) (start [] []) = .next ((start [] []).setReg 3 0xFFFFFFFF).advance := ⟨rfl, rfl, rfl⟩

/-- `OnlyCmplWritesFlagsImplicitly`: a change by `cmpl`, and one through an operand field. -/
theorem witness_OnlyCmplWritesFlagsImplicitly :
    (exec (.cmpl 0 0) (start [] []) = .next ((start [] []).setReg 16 0x40).advance ∧
        ((start [] []).setReg 16 0x40).advance.flags ≠ (start [] []).flags) ∧
      exec (.movlImmReg 16 1) (start [] []) = .next ((start [] []).setReg 16 1).advance ∧
        ((start [] []).setReg 16 1).advance.flags ≠ (start [] []).flags := by
  exact ⟨⟨rfl, by decide⟩, rfl, by decide⟩

/-- `CmplReplacesAllFlagBits`, `BranchesAfterCmplCompare`: the flags register as an operand, and two others. -/
theorem witness_compare_operands : Names 16 16 ∧ Names 0 0 ∧ Names 1 1 ∧ (0 : RegIdx) ≠ 16 ∧ (1 : RegIdx) ≠ 16 := by
  unfold Names
  decide

/-- `CmplGivesSevenPatterns`: a pair for each value (the table of 43_compare.md section 2), the two overflowing ones included. -/
theorem witness_CmplGivesSevenPatterns :
    compareFlags 7 7 = 0x40 ∧ compareFlags 3 5 = 0x00 ∧ compareFlags 5 3 = 0x81 ∧ compareFlags 0xFFFFFFFF 0 = 0x01 ∧
      compareFlags 0 0xFFFFFFFF = 0x80 ∧ compareFlags 0xFFFFFFFF 0x7FFFFFFF = 0x881 ∧
      compareFlags 1 0x80000000 = 0x800 := by decide

/-- `CallPushesReturnAddress`, `PushlStoresBelowStackPointer`, `CallThenRetResumesAfterCall`: the push address 0, 1020 (reset), 1021 and
the wrapped one. -/
theorem witness_push_addresses :
    (pushAddr (start [] [(6, 4)])).toNat = 0 ∧ (pushAddr State.reset).toNat = 1020 ∧
      (pushAddr (start [] [(6, 1025)])).toNat = 1021 ∧ (pushAddr (start [] [(6, 0)])).toNat = 4294967292 := by decide

/-- `PushlStoresBelowStackPointer`: `pushl r6` at the highest legal push address, another register at the first illegal one. -/
theorem witness_PushlStoresBelowStackPointer :
    (Names 6 6 ∧ (pushAddr State.reset).toNat ≤ 1020) ∧ Names 0 0 ∧ 1020 < (pushAddr (start [] [(6, 1025)])).toNat := by
  unfold Names
  decide

/-- `CallThenRetResumesAfterCall`, the inner hypotheses: the state the call leaves meets them itself. -/
theorem witness_CallThenRetResumesAfterCall :
    look (exec (.call 12) State.reset) (fun t => (t.reg 6, t.dataEndian)) = some (1020, State.reset.dataEndian) := by decide

/-- `RetPopsReturnAddress`: stack pointers 1020 and 1021, neither of them 1024. -/
theorem witness_RetPopsReturnAddress :
    ((start [] [(6, 1020)]).reg 6 ≠ 1024 ∧ ((start [] [(6, 1020)]).reg 6).toNat = 1020) ∧
      (start [] [(6, 1021)]).reg 6 ≠ 1024 ∧ ((start [] [(6, 1021)]).reg 6).toNat = 1021 := by decide

/-- `RetAtTopLevelHalts`: the reset state. -/
theorem witness_RetAtTopLevelHalts : State.reset.reg 6 = 1024 := by decide

/-- `PoplLoadsThenIncrements`: stack pointers 1020 and 1024, with `popl r6` and another register. -/
theorem witness_PoplLoadsThenIncrements :
    Names 6 6 ∧ Names 7 7 ∧ (7 : RegIdx) ≠ 6 ∧ ((start [] [(6, 1020)]).reg 6).toNat ≤ 1020 ∧
      1020 < (State.reset.reg 6).toNat := by
  unfold Names
  decide

/-- `PushesThenPopsReverse`: two pushes, the popped registers distinct, at the least stack pointer that holds them. -/
theorem witness_PushesThenPopsReverse :
    (([7, 16] : List RegField).length = ([1, 1] : List RegField).length) ∧
      (∀ r ∈ ([1, 1] : List RegField), r.toNat < 17 ∧ r.toNat ≠ 6) ∧ (∀ d ∈ ([7, 16] : List RegField), d.toNat < 17 ∧ d.toNat ≠ 6) ∧
      ([7, 16] : List RegField).Nodup ∧ 4 * ([1, 1] : List RegField).length ≤ ((start [] [(6, 8)]).reg 6).toNat ∧
      ((start [] [(6, 8)]).reg 6).toNat ≤ 1024 := by decide

/-- V-STK-30 in small: the pops deliver in reverse. -/
theorem test_push_pop_reverse :
    look (execAll [.pushl 0, .pushl 1, .popl 3, .popl 4] (start [] [(0, 1), (1, 2)])) (fun t => (t.reg 3, t.reg 4, t.sp)) =
      some (2, 1, 0x400) := by decide

/-- `ReadrTakesNextInput`: a value available. -/
theorem witness_ReadrTakesNextInput :
    Names 16 16 ∧ ((start [] []).deliver 64).input[((start [] []).deliver 64).inPos]? = some 64 := by
  unfold Names
  decide

/-- `ReadrWaitsForInput`: no value available, the `readr` fetched. -/
theorem witness_ReadrWaitsForInput :
    Names 0 0 ∧ (start [0xA8000000] []).inPos = (start [0xA8000000] []).input.length ∧
      Fetches (start [0xA8000000] []) 0xA8000000 ∧ decode (start [0xA8000000] []).opMap 0xA8000000 = .instr (.readr 0) := by
  unfold Names Fetches
  decide

/-- `StreamsMoveByConsoleOnly`: a next state. -/
theorem witness_StreamsMoveByConsoleOnly :
    exec (.printr 6) State.reset = .next (State.reset.emit 0x400).advance := rfl

end Sys2Proof.Tests
end

section
/-! PROOFS. The reset state (10_state.md R26). -/

namespace Sys2Proof.Machine

open Sys2Proof

/-- Every register of the reset state: `INIT_SP` in `x[6]`, 0 elsewhere (R26). -/
theorem State.reset_reg (k : RegIdx) : State.reset.reg k = if k = spIdx then initSp else 0 := by
  revert k
  decide

/-- The flag word of the reset state is 0, so each flag is clear (R26). -/
theorem State.reset_flags : State.reset.flags = 0 := State.reset_reg flagsIdx

/-- Settles O1: the registers by `State.reset_reg`, the flags from the flag word 0, the memory from its empty list. -/
theorem resetZeroesAllButStackPointer : Obligations.ResetZeroesAllButStackPointer := by
  unfold Obligations.ResetZeroesAllButStackPointer
  rw [State.reset_flags]
  exact ⟨rfl, State.reset_reg 6, fun k hk => (State.reset_reg k).trans (if_neg hk), ⟨rfl, rfl, rfl, rfl⟩,
    fun a _ => Memory.readByte_nil a⟩

end Sys2Proof.Machine
end

section
/-! PROOFS. The register frame: an instruction leaves every register that the table of R14 does not mark written. One rule per shared
operation says when an answer built with it keeps a register; each arm of `exec` is an application of these rules. -/

namespace Sys2Proof.Machine

open Sys2Proof

/-- Where the answer is a next state, `x[k]` is there what it was in `s`. -/
def AnswerKeepsReg (k : RegIdx) (s : State) (r : StepResult) : Prop := ∀ t, r = .next t → t.reg k = s.reg k

/-! ### One rule per shared operation -/

section Rules

variable {k : RegIdx} {s : State}

theorem answerKeepsReg_next {t : State} (h : t.reg k = s.reg k) : AnswerKeepsReg k s (.next t) := by
  rintro _ ⟨⟩
  exact h

theorem answerKeepsReg_regIndexFault : AnswerKeepsReg k s (regIndexFault s) := by
  intro t ht
  obtain ⟨w, -, rfl⟩ := regIndexFault_next s t ht
  exact State.reg_raise s _ w k

theorem answerKeepsReg_useReg {r : RegField} {f : RegIdx → StepResult}
    (h : ∀ a, Names r a → AnswerKeepsReg k s (f a)) : AnswerKeepsReg k s (useReg r s f) := by
  rcases useReg_cases r s f with ⟨a, ha, e⟩ | ⟨-, e⟩ <;> rw [e]
  · exact h a ha
  · exact answerKeepsReg_regIndexFault

theorem answerKeepsReg_useRegs {r1 r2 : RegField} {f : RegIdx → RegIdx → StepResult}
    (h : ∀ a b, Names r2 b → AnswerKeepsReg k s (f a b)) : AnswerKeepsReg k s (useRegs r1 r2 s f) :=
  answerKeepsReg_useReg fun a _ => answerKeepsReg_useReg fun b hb => h a b hb

theorem answerKeepsReg_loadWord {addr : Word} {f : Word → StepResult} (h : ∀ v, AnswerKeepsReg k s (f v)) :
    AnswerKeepsReg k s (loadWord addr s f) := by
  unfold loadWord
  split
  · exact h _
  · exact answerKeepsReg_next (State.reg_raise s _ addr k)

theorem answerKeepsReg_storeWord {addr v : Word} {f : State → StepResult}
    (h : ∀ m, AnswerKeepsReg k s (f (s.setMem m))) : AnswerKeepsReg k s (storeWord addr v s f) := by
  unfold storeWord
  split
  · exact h _
  · exact answerKeepsReg_next (State.reg_raise s _ addr k)

theorem answerKeepsReg_branchIf (c : Bool) (imm : Imm16) : AnswerKeepsReg k s (branchIf c imm s) := by
  cases c
  · exact answerKeepsReg_next (State.reg_advance s k)
  · exact answerKeepsReg_next (State.reg_jump s imm k)

end Rules

/-! ### Writes to the registers of the table -/

section Unmarked

variable {i : Instr} {k a : RegIdx} (hk : ¬ WritesReg i k)
include hk

/-- A write to the register the destination field names leaves an unmarked register. -/
theorem reg_setReg_of_destField {r : RegField} (hd : destField i = some r) (ha : Names r a) (s : State) (v : Word) :
    (s.setReg a v).reg k = s.reg k :=
  State.reg_setReg_ne s a k v fun e => hk (.inl ⟨r, hd, e ▸ ha⟩)

/-- A write to the implicit destination leaves an unmarked register. -/
theorem reg_setReg_of_destImplicit (hd : destImplicit i = some a) (s : State) (v : Word) :
    (s.setReg a v).reg k = s.reg k :=
  State.reg_setReg_ne s a k v fun e => hk (.inr (e ▸ hd))

/-- The common answer: the destination written and `pc` advanced. -/
theorem answerKeepsReg_dest {r : RegField} (hd : destField i = some r) (ha : Names r a) (s : State) (v : Word) :
    AnswerKeepsReg k s (.next (s.setReg a v).advance) :=
  answerKeepsReg_next (reg_setReg_of_destField hk hd ha s v)

end Unmarked

/-! ### The arms with a branch of their own -/

/-- `ret` halts or pops, and writes no register but `x[6]`. -/
theorem answerKeepsReg_execRet {k : RegIdx} (hk : ¬ WritesReg .ret k) (s : State) :
    AnswerKeepsReg k s (execRet s) := by
  unfold execRet
  split
  · exact answerKeepsReg_next (State.reg_halt s _ k)
  · exact answerKeepsReg_loadWord fun _ => answerKeepsReg_next (reg_setReg_of_destImplicit hk rfl s _)

/-- `readr` takes a value or waits, and writes no register but its destination. -/
theorem answerKeepsReg_execReadr {r : RegField} {k : RegIdx} (hk : ¬ WritesReg (.readr r) k) (s : State) :
    AnswerKeepsReg k s (execReadr r s) := by
  refine answerKeepsReg_useReg fun a ha => ?_
  cases s.nextInput with
  | none => exact answerKeepsReg_next rfl
  | some v => exact answerKeepsReg_next (reg_setReg_of_destField hk rfl ha s v)

/-- `popl` writes its destination, then `x[6]`. -/
theorem answerKeepsReg_execPopl {r : RegField} {k : RegIdx} (hk : ¬ WritesReg (.popl r) k) (s : State) :
    AnswerKeepsReg k s (execPopl r s) :=
  answerKeepsReg_useReg fun _ ha => answerKeepsReg_loadWord fun v => answerKeepsReg_next <|
    (reg_setReg_of_destImplicit hk rfl _ _).trans (reg_setReg_of_destField hk rfl ha s v)

/-! ### Every instruction -/

/-- No instruction changes a register that its row of the table does not mark written (R14). -/
theorem exec_keeps_unmarked_reg (i : Instr) (s : State) (k : RegIdx) (hk : ¬ WritesReg i k) :
    AnswerKeepsReg k s (exec i s) := by
  cases i with
  | subl | addlImmReg | shrl | movlImmReg =>
    rw [exec]
    refine answerKeepsReg_useReg fun _ ha => ?_
    exact answerKeepsReg_dest hk rfl ha s _
  | addlRegReg | imull | movlRegReg =>
    rw [exec]
    refine answerKeepsReg_useRegs fun _ _ hb => ?_
    exact answerKeepsReg_dest hk rfl hb s _
  | movlDerefReg =>
    rw [exec]
    refine answerKeepsReg_useRegs fun _ _ hb => answerKeepsReg_loadWord fun _ => ?_
    exact answerKeepsReg_dest hk rfl hb s _
  | movlRegDeref =>
    rw [exec]
    refine answerKeepsReg_useRegs fun _ _ _ => answerKeepsReg_storeWord fun m => ?_
    exact answerKeepsReg_next (State.reg_setMem s m k)
  | cmpl =>
    rw [exec]
    refine answerKeepsReg_useRegs fun _ _ _ => ?_
    exact answerKeepsReg_next (reg_setReg_of_destImplicit hk rfl s _)
  | je imm | jl imm | jle imm | jge imm | jbe imm | jmp imm => exact answerKeepsReg_branchIf _ imm
  | call =>
    rw [exec]
    refine answerKeepsReg_storeWord fun m => ?_
    exact answerKeepsReg_next (reg_setReg_of_destImplicit hk rfl (s.setMem m) _)
  | ret => exact answerKeepsReg_execRet hk s
  | pushl =>
    rw [exec]
    refine answerKeepsReg_useReg fun _ _ => answerKeepsReg_storeWord fun m => ?_
    exact answerKeepsReg_next (reg_setReg_of_destImplicit hk rfl (s.setMem m) _)
  | popl => exact answerKeepsReg_execPopl hk s
  | printr =>
    rw [exec]
    refine answerKeepsReg_useReg fun a _ => ?_
    exact answerKeepsReg_next (State.reg_emit s (s.reg a) k)
  | readr => exact answerKeepsReg_execReadr hk s

end Sys2Proof.Machine
end

section
/-! PROOFS. The flags register `x[16]` (10_state.md R17, R18): which instructions change it, and what `cmpl` leaves in it. -/

namespace Sys2Proof.Machine

open Sys2Proof

/-! ### Which instructions change it (R17) -/

/-- The table marks `x[16]` as an implicit destination in the row of `cmpl` only (R14). -/
theorem eq_cmpl_of_destImplicit_flags {i : Instr} (h : destImplicit i = some flagsIdx) : ∃ r1 r2, i = .cmpl r1 r2 := by
  cases i with
  | cmpl r1 r2 => exact ⟨r1, r2, rfl⟩
  | _ => simp [destImplicit, spIdx, flagsIdx] at h

/-- Settles O35: a changed `x[16]` is marked written, explicitly or implicitly, and the implicit mark is in the row of `cmpl`. -/
theorem onlyCmplWritesFlagsImplicitly : Obligations.OnlyCmplWritesFlagsImplicitly := by
  unfold Obligations.OnlyCmplWritesFlagsImplicitly
  intro i s t ht hne
  have hw : WritesReg i flagsIdx := by
    by_contra hk
    exact hne (exec_keeps_unmarked_reg i s flagsIdx hk t ht)
  obtain hexplicit | himplicit := hw
  · exact .inr hexplicit
  · exact .inl (eq_cmpl_of_destImplicit_flags himplicit)

/-! ### What `cmpl` leaves in it (R18) -/

/-- The next state of a `cmpl` of two registers (R105). -/
theorem exec_cmpl_of_names {r1 r2 : RegField} {a b : RegIdx} (ha : Names r1 a) (hb : Names r2 b) (s : State) :
    exec (.cmpl r1 r2) s = .next (s.setReg flagsIdx (compareFlags (s.reg a) (s.reg b))).advance :=
  (exec_cmpl r1 r2 s).trans (useRegs_ok r1 r2 a b ha hb s _)

theorem flagIf_and_eq_zero (c : Bool) {mask m : Word} (h : mask &&& m = 0) : flagIf c mask &&& m = 0 := by
  cases c
  · exact BitVec.zero_and
  · exact h

/-- The flag word of a comparison has no bit outside CF, ZF, SF and OF (R18). -/
theorem compareFlags_and_unnamed (a b : Word) : compareFlags a b &&& 0xFFFFF73E = 0 := by
  simp only [compareFlags, BitVec.and_or_distrib_right]
  rw [flagIf_and_eq_zero _ (by decide : maskCF &&& 0xFFFFF73E = 0), flagIf_and_eq_zero _ (by decide : maskZF &&& 0xFFFFF73E = 0),
    flagIf_and_eq_zero _ (by decide : maskSF &&& 0xFFFFF73E = 0), flagIf_and_eq_zero _ (by decide : maskOF &&& 0xFFFFF73E = 0)]
  rfl

/-- Settles O37: `x[16]` becomes the flag word of the two operands, which the old `x[16]` enters only as an operand. -/
theorem cmplReplacesAllFlagBits : Obligations.CmplReplacesAllFlagBits := by
  unfold Obligations.CmplReplacesAllFlagBits
  intro r1 r2 s a b ha hb
  have hflags (u : State) : (u.setReg flagsIdx (compareFlags (u.reg a) (u.reg b))).advance.reg 16 =
      compareFlags (u.reg a) (u.reg b) := State.reg_setReg_same u flagsIdx _
  refine ⟨_, exec_cmpl_of_names ha hb s, ?_, fun v hna hnb => ⟨_, exec_cmpl_of_names ha hb (s.setReg 16 v), ?_⟩⟩
  · rw [hflags, compareFlags_and_unnamed]
  · rw [hflags, hflags, State.reg_setReg_ne s 16 a v hna, State.reg_setReg_ne s 16 b v hnb]

end Sys2Proof.Machine
end

section
/-! PROOFS. The arithmetic family (41_arithmetic.md): each instruction writes one register with the word of the exact result, moves `pc`
on by 4, and leaves everything else. The rules here speak of any instruction of that shape; the register fault and the opcode number are
rules for every instruction. -/

namespace Sys2Proof.Machine

open Sys2Proof

/-! ### The opcode number (R56) -/

/-- The opcode field of a canonical word is the number of its operation. -/
theorem opField_encode (m : OpMap) (i : Instr) : opField (encode m i) = opNumber m (opOfInstr i) :=
  (opField_encodeFields _).trans (fieldsOfInstr_op m i)

/-! ### A register field above 16 (R72, R148) -/

theorem useReg_above {r : RegField} (h : 16 < r.toNat) {s : State} {w : Word} (hw : s.instrWord = some w)
    (k : RegIdx → StepResult) : useReg r s k = .next (s.raise .regIndexFault w) :=
  (useReg_bad r h s k).trans (regIndexFault_of_word s w hw)

theorem useRegs_above {r1 r2 : RegField} (h : 16 < r1.toNat ∨ 16 < r2.toNat) {s : State} {w : Word} (hw : s.instrWord = some w)
    (k : RegIdx → RegIdx → StepResult) : useRegs r1 r2 s k = .next (s.raise .regIndexFault w) :=
  (useRegs_bad r1 r2 h s k).trans (regIndexFault_of_word s w hw)

/-! ### The frame (R84) -/

/-- One register written and `pc` moved on: the frame of every instruction of the family. -/
theorem writesOnly_setReg_advance (s : State) (a : RegIdx) (v : Word) : WritesOnly [a] s (s.setReg a v).advance := by
  refine ⟨fun k hk => ?_, fun _ => rfl, ⟨rfl, rfl, rfl, rfl⟩, ⟨rfl, rfl⟩, ⟨rfl, rfl, rfl, rfl, rfl⟩⟩
  exact State.reg_setReg_ne s a k v (List.ne_of_not_mem_cons hk)

/-- What an answer of that shape says of its next state. -/
theorem exists_next_writing {r : StepResult} {s : State} {a : RegIdx} {v : Word} (h : r = .next (s.setReg a v).advance) :
    ∃ t, r = .next t ∧ t.reg a = v ∧ t.pc = s.pc + 4 ∧ WritesOnly [a] s t :=
  ⟨_, h, State.reg_setReg_same s a v, rfl, writesOnly_setReg_advance s a v⟩

/-! ### Results modulo 2^32 (R84) -/

/-- The sign extension of the immediate has its signed value (R53). -/
theorem toInt_sext32 (imm : Imm16) : (sext32 imm).toInt = imm.toInt :=
  BitVec.toInt_signExtend_of_le (by decide)

/-- The sum of two words is the word of their exact signed sum. -/
theorem add_eq_ofInt (x y : Word) : x + y = BitVec.ofInt 32 (x.toInt + y.toInt) := by
  rw [BitVec.ofInt_add, BitVec.ofInt_toInt, BitVec.ofInt_toInt]

theorem add_sext32 (x : Word) (imm : Imm16) : x + sext32 imm = BitVec.ofInt 32 (x.toInt + imm.toInt) := by
  rw [add_eq_ofInt, toInt_sext32]

theorem sub_sext32 (x : Word) (imm : Imm16) : x - sext32 imm = BitVec.ofInt 32 (x.toInt - imm.toInt) := by
  rw [← truncDiff_eq_sub, truncDiff, wideDiff, toInt_sext32]

/-- The logical shift by one halves the unsigned value, rounded down. -/
theorem toNat_ushiftRight_one (x : Word) : (x >>> 1).toNat = x.toNat / 2 :=
  BitVec.toNat_ushiftRight x 1

/-- The half of a word leaves bit 31 clear. -/
theorem msb_ushiftRight_one (x : Word) : (x >>> 1).msb = false := by
  rw [BitVec.msb_eq_false_iff_two_mul_lt, toNat_ushiftRight_one]
  omega

/-! ### The instructions -/

theorem exec_subl_of_names {r1 : RegField} {a : RegIdx} (ha : Names r1 a) (imm : Imm16) (s : State) :
    exec (.subl r1 imm) s = .next (s.setReg a (BitVec.ofInt 32 ((s.reg a).toInt - imm.toInt))).advance := by
  rw [← sub_sext32]
  exact (exec_subl r1 imm s).trans (useReg_ok r1 a ha s _)

theorem exec_addlRegReg_of_names {r1 r2 : RegField} {a b : RegIdx} (ha : Names r1 a) (hb : Names r2 b) (s : State) :
    exec (.addlRegReg r1 r2) s = .next (s.setReg b (BitVec.ofInt 32 ((s.reg b).toInt + (s.reg a).toInt))).advance := by
  rw [← add_eq_ofInt]
  exact (exec_addlRegReg r1 r2 s).trans (useRegs_ok r1 r2 a b ha hb s _)

theorem exec_addlImmReg_of_names {r1 : RegField} {a : RegIdx} (ha : Names r1 a) (imm : Imm16) (s : State) :
    exec (.addlImmReg r1 imm) s = .next (s.setReg a (BitVec.ofInt 32 ((s.reg a).toInt + imm.toInt))).advance := by
  rw [← add_sext32]
  exact (exec_addlImmReg r1 imm s).trans (useReg_ok r1 a ha s _)

theorem exec_shrl_of_names {r1 : RegField} {a : RegIdx} (ha : Names r1 a) (s : State) :
    exec (.shrl r1) s = .next (s.setReg a (s.reg a >>> 1)).advance :=
  (exec_shrl r1 s).trans (useReg_ok r1 a ha s _)

/-- Settles O21: the wrapped difference is the word of the exact one (`sub_sext32`). -/
theorem sublSubtractsImmediate : Obligations.SublSubtractsImmediate := by
  unfold Obligations.SublSubtractsImmediate
  intro r1 imm s
  refine ⟨?_, fun a ha => ?_, fun h w hw => ?_⟩
  · exact (opField_encode _ _).trans (by decide : opNumber defaultOpMap .subl = 0)
  · exact exists_next_writing (exec_subl_of_names ha imm s)
  · exact (exec_subl r1 imm s).trans (useReg_above h hw _)

/-- Settles O22: the wrapped sum is the word of the exact one (`add_eq_ofInt`), also where both fields name one register. -/
theorem addlRegRegAddsIntoSecond : Obligations.AddlRegRegAddsIntoSecond := by
  unfold Obligations.AddlRegRegAddsIntoSecond
  intro r1 r2 s
  refine ⟨?_, fun a b ha hb => ?_, fun h w hw => ?_⟩
  · exact (opField_encode _ _).trans (by decide : opNumber defaultOpMap .addlRegReg = 1)
  · exact exists_next_writing (exec_addlRegReg_of_names ha hb s)
  · exact (exec_addlRegReg r1 r2 s).trans (useRegs_above h hw _)

/-- Settles O23: the wrapped sum is the word of the exact one (`add_sext32`). -/
theorem addlImmRegAddsImmediate : Obligations.AddlImmRegAddsImmediate := by
  unfold Obligations.AddlImmRegAddsImmediate
  intro r1 imm s
  refine ⟨?_, fun a ha => ?_, fun h w hw => ?_⟩
  · exact (opField_encode _ _).trans (by decide : opNumber defaultOpMap .addlImmReg = 2)
  · exact exists_next_writing (exec_addlImmReg_of_names ha imm s)
  · exact (exec_addlImmReg r1 imm s).trans (useReg_above h hw _)

/-- Settles O25: the logical shift by one halves the unsigned value, and half of a word is below 2^31. -/
theorem shrlHalvesUnsigned : Obligations.ShrlHalvesUnsigned := by
  unfold Obligations.ShrlHalvesUnsigned
  intro r1 s
  refine ⟨?_, fun a ha => ?_, fun h w hw => ?_⟩
  · exact (opField_encode _ _).trans (by decide : opNumber defaultOpMap .shrl = 4)
  · obtain ⟨t, ht, hreg, hpc, hframe⟩ := exists_next_writing (exec_shrl_of_names ha s)
    exact ⟨t, ht, hreg ▸ toNat_ushiftRight_one _, hreg ▸ msb_ushiftRight_one _, hpc, hframe⟩
  · exact (exec_shrl r1 s).trans (useReg_above h hw _)

end Sys2Proof.Machine
end

section
/-! PROOFS. The data movement family (42_data_movement.md): a copy, a load, a store and a load of an immediate. A copy and both loads have
the frame of the arithmetic family; a store has a frame of its own. -/

namespace Sys2Proof.Machine

open Sys2Proof

/-! ### The effective address (R94) -/

/-- The wrapped sum of base and immediate is the word of the exact one. -/
theorem effAddr_eq_ofInt (s : State) (base : RegIdx) (imm : Imm16) :
    effAddr s base imm = BitVec.ofInt 32 ((s.reg base).toInt + imm.toInt) :=
  add_sext32 (s.reg base) imm

/-! ### A stored word (R34) -/

/-- After a word write, the byte at each of the four offsets is that byte of the word. -/
theorem Memory.readByte_writeWord_offset (m : Memory) (e : Endian) (a : Nat) (v : Word) {j : Nat} (hj : j < 4) :
    (m.writeWord e a v).readByte (a + j) = byteOfWord e v j := by
  rw [Memory.readByte_writeWord, if_pos (by omega), Nat.add_sub_cancel_left]

/-- A state whose memory differs by one stored word reads as before outside the four bytes. -/
theorem keepsMemoryBut_of_writeWord {s t : State} {e : Endian} {addr : Nat} {v : Word}
    (h : t.mem = s.mem.writeWord e addr v) : KeepsMemoryBut addr s t := by
  intro a ha
  rw [h, Memory.readByte_writeWord, if_neg (by omega)]

/-- One word stored and `pc` moved on: the frame of a store. -/
theorem storesOnly_setMem_advance (s : State) (addr : Nat) (v : Word) :
    StoresOnly addr [] s (s.setMem (s.mem.writeWord s.dataEndian addr v)).advance :=
  ⟨fun _ _ => rfl, keepsMemoryBut_of_writeWord rfl, ⟨rfl, rfl, rfl, rfl⟩, ⟨rfl, rfl⟩, ⟨rfl, rfl, rfl, rfl, rfl⟩⟩

/-! ### The instructions -/

theorem exec_movlRegReg_of_names {r1 r2 : RegField} {a b : RegIdx} (ha : Names r1 a) (hb : Names r2 b) (s : State) :
    exec (.movlRegReg r1 r2) s = .next (s.setReg b (s.reg a)).advance :=
  (exec_movlRegReg r1 r2 s).trans (useRegs_ok r1 r2 a b ha hb s _)

/-- Past the register check, a load is `loadWord` at the effective address (R96). -/
theorem exec_movlDerefReg_of_names {r1 r2 : RegField} {a b : RegIdx} (ha : Names r1 a) (hb : Names r2 b) (imm : Imm16)
    (s : State) :
    exec (.movlDerefReg r1 r2 imm) s = loadWord (effAddr s a imm) s fun v => .next (s.setReg b v).advance :=
  (exec_movlDerefReg r1 r2 imm s).trans (useRegs_ok r1 r2 a b ha hb s _)

/-- Past the register check, a store is `storeWord` at the effective address (R97). -/
theorem exec_movlRegDeref_of_names {r1 r2 : RegField} {a b : RegIdx} (ha : Names r1 a) (hb : Names r2 b) (imm : Imm16)
    (s : State) :
    exec (.movlRegDeref r1 r2 imm) s = storeWord (effAddr s b imm) (s.reg a) s fun t => .next t.advance :=
  (exec_movlRegDeref r1 r2 imm s).trans (useRegs_ok r1 r2 a b ha hb s _)

theorem exec_movlImmReg_of_names {r1 : RegField} {a : RegIdx} (ha : Names r1 a) (imm : Imm16) (s : State) :
    exec (.movlImmReg r1 imm) s = .next (s.setReg a (BitVec.ofInt 32 imm.toInt)).advance := by
  rw [← toInt_sext32, BitVec.ofInt_toInt]
  exact (exec_movlImmReg r1 imm s).trans (useReg_ok r1 a ha s _)

/-- Settles O26: one register written with the old value of another. -/
theorem movlRegRegCopies : Obligations.MovlRegRegCopies := by
  unfold Obligations.MovlRegRegCopies
  intro r1 r2 s
  refine ⟨?_, fun a b ha hb => ?_, fun h w hw => ?_⟩
  · exact (opField_encode _ _).trans (by decide : opNumber defaultOpMap .movlRegReg = 5)
  · exact exists_next_writing (exec_movlRegReg_of_names ha hb s)
  · exact (exec_movlRegReg r1 r2 s).trans (useRegs_above h hw _)

/-- Settles O27: the two answers of `loadWord` at the effective address, on either side of 1020. -/
theorem movlDerefRegLoads : Obligations.MovlDerefRegLoads := by
  unfold Obligations.MovlDerefRegLoads
  intro r1 r2 imm s
  refine ⟨?_, fun a b ha hb => ⟨effAddr_eq_ofInt s a imm, fun hlegal => ?_, fun hillegal => ?_⟩, fun h w hw => ?_⟩
  · exact (opField_encode _ _).trans (by decide : opNumber defaultOpMap .movlDerefReg = 6)
  · exact exists_next_writing ((exec_movlDerefReg_of_names ha hb imm s).trans (loadWord_legal _ s _ hlegal))
  · exact (exec_movlDerefReg_of_names ha hb imm s).trans (loadWord_illegal _ s _ hillegal)
  · exact (exec_movlDerefReg r1 r2 imm s).trans (useRegs_above h hw _)

/-- Settles O28: the two answers of `storeWord` at the effective address, on either side of 1020. -/
theorem movlRegDerefStores : Obligations.MovlRegDerefStores := by
  unfold Obligations.MovlRegDerefStores
  intro r1 r2 imm s
  refine ⟨?_, fun a b ha hb => ⟨effAddr_eq_ofInt s b imm, fun hlegal => ?_, fun hillegal => ?_⟩, fun h w hw => ?_⟩
  · exact (opField_encode _ _).trans (by decide : opNumber defaultOpMap .movlRegDeref = 7)
  · refine ⟨_, (exec_movlRegDeref_of_names ha hb imm s).trans (storeWord_legal _ _ s _ hlegal), fun j hj => ?_, rfl, ?_⟩
    · exact Memory.readByte_writeWord_offset s.mem s.dataEndian _ (s.reg a) hj
    · exact storesOnly_setMem_advance s _ (s.reg a)
  · exact (exec_movlRegDeref_of_names ha hb imm s).trans (storeWord_illegal _ _ s _ hillegal)
  · exact (exec_movlRegDeref r1 r2 imm s).trans (useRegs_above h hw _)

/-- Settles O29: the sign-extended immediate is the word of its signed value (`toInt_sext32`). -/
theorem movlImmRegLoadsImmediate : Obligations.MovlImmRegLoadsImmediate := by
  unfold Obligations.MovlImmRegLoadsImmediate
  intro r1 imm s
  refine ⟨?_, fun a ha => ?_, fun h w hw => ?_⟩
  · exact (opField_encode _ _).trans (by decide : opNumber defaultOpMap .movlImmReg = 8)
  · exact exists_next_writing (exec_movlImmReg_of_names ha imm s)
  · exact (exec_movlImmReg r1 imm s).trans (useReg_above h hw _)

end Sys2Proof.Machine
end

section
/-! PROOFS. The branches (44_branches.md): each is `branchIf` on a condition of `x[16]`, so one rule for `branchIf` gives the next state and
the frame of all six, and a lemma per condition says which flags take the branch. -/

namespace Sys2Proof.Machine

open Sys2Proof

/-! ### The shared transfer (R113) -/

/-- The wrapped target is the word of the exact sum of the unsigned `pc` and the signed displacement. -/
theorem State.jump_pc_eq_ofInt (s : State) (imm : Imm16) : (s.jump imm).pc = BitVec.ofInt 32 (s.pc.toNat + imm.toInt) := by
  rw [State.jump_pc, BitVec.ofInt_add, BitVec.ofInt_natCast, BitVec.ofNat_toNat, BitVec.setWidth_eq, ← toInt_sext32,
    BitVec.ofInt_toInt]

/-- `pc` replaced and nothing else: the frame of every branch. -/
theorem writesOnly_setPc (s : State) (p : Word) : WritesOnly [] s (s.setPc p) :=
  ⟨fun _ _ => rfl, fun _ => rfl, ⟨rfl, rfl, rfl, rfl⟩, ⟨rfl, rfl⟩, ⟨rfl, rfl, rfl, rfl, rfl⟩⟩

/-- What a branch says of its next state, for a condition that decides `P`. -/
theorem exists_next_branching {c : Bool} {P : Prop} [Decidable P] (hc : c = true ↔ P) (imm : Imm16) (s : State) :
    ∃ t, branchIf c imm s = .next t ∧ WritesOnly [] s t ∧
      t.pc = if P then BitVec.ofInt 32 (s.pc.toNat + imm.toInt) else s.pc + 4 := by
  cases c with
  | true => exact ⟨s.jump imm, rfl, writesOnly_setPc s _, by rw [if_pos (hc.mp rfl), State.jump_pc_eq_ofInt]⟩
  | false => exact ⟨s.advance, rfl, writesOnly_setPc s _, by rw [if_neg (mt hc.mpr Bool.false_ne_true), State.advance_pc]⟩

/-! ### The conditions (R114 to R118, R121) -/

theorem condE_iff (f : Word) : condE f = true ↔ f.getLsbD 6 = true := Iff.rfl

theorem condL_iff (f : Word) : condL f = true ↔ f.getLsbD 7 ≠ f.getLsbD 11 := bne_iff_ne

theorem condLE_iff (f : Word) : condLE f = true ↔ f.getLsbD 7 ≠ f.getLsbD 11 ∨ f.getLsbD 6 = true :=
  Bool.or_eq_true_iff.trans (or_congr (condL_iff f) (condE_iff f))

/-- The condition of `jge` is the complement of that of `jl`. -/
theorem condGE_eq_not_condL (f : Word) : condGE f = !condL f := rfl

theorem condGE_iff (f : Word) : condGE f = true ↔ f.getLsbD 7 = f.getLsbD 11 := by
  rw [condGE_eq_not_condL, Bool.not_eq_true', ← Bool.not_eq_true, condL_iff, not_ne_iff]

theorem condBE_iff (f : Word) : condBE f = true ↔ f.getLsbD 0 = true ∨ f.getLsbD 6 = true := Bool.or_eq_true_iff

/-! ### The instructions -/

/-- Settles O40: the branch on `condE`, which is ZF. -/
theorem jeBranchesOnZF : Obligations.JeBranchesOnZF := by
  unfold Obligations.JeBranchesOnZF
  intro imm s
  refine ⟨?_, exists_next_branching (condE_iff s.flags) imm s⟩
  exact (opField_encode _ _).trans (by decide : opNumber defaultOpMap .je = 10)

/-- Settles O41: the branch on `condL`, which holds where SF and OF differ. -/
theorem jlBranchesOnSFxorOF : Obligations.JlBranchesOnSFxorOF := by
  unfold Obligations.JlBranchesOnSFxorOF
  intro imm s
  refine ⟨?_, exists_next_branching (condL_iff s.flags) imm s⟩
  exact (opField_encode _ _).trans (by decide : opNumber defaultOpMap .jl = 11)

/-- Settles O42: the branch on `condLE`, the condition of `jl` or that of `je`. -/
theorem jleBranchesOnSFxorOForZF : Obligations.JleBranchesOnSFxorOForZF := by
  unfold Obligations.JleBranchesOnSFxorOForZF
  intro imm s
  refine ⟨?_, exists_next_branching (condLE_iff s.flags) imm s⟩
  exact (opField_encode _ _).trans (by decide : opNumber defaultOpMap .jle = 12)

/-- Settles O43: the branch on `condGE`, the complement of `jl`'s condition. -/
theorem jgeBranchesOnNotSFxorOF : Obligations.JgeBranchesOnNotSFxorOF := by
  unfold Obligations.JgeBranchesOnNotSFxorOF
  intro imm s
  refine ⟨?_, exists_next_branching (condGE_iff s.flags) imm s⟩
  exact (opField_encode _ _).trans (by decide : opNumber defaultOpMap .jge = 13)

/-- Settles O44: the branch on `condBE`, which is CF or ZF. -/
theorem jbeBranchesOnCForZF : Obligations.JbeBranchesOnCForZF := by
  unfold Obligations.JbeBranchesOnCForZF
  intro imm s
  refine ⟨?_, exists_next_branching (condBE_iff s.flags) imm s⟩
  exact (opField_encode _ _).trans (by decide : opNumber defaultOpMap .jbe = 14)

/-- Settles O45: `jmp` is the branch that is always taken. -/
theorem jmpAlwaysAddsDisplacement : Obligations.JmpAlwaysAddsDisplacement := by
  unfold Obligations.JmpAlwaysAddsDisplacement
  intro imm s
  refine ⟨?_, s.jump imm, rfl, writesOnly_setPc s _, State.jump_pc_eq_ofInt s imm⟩
  exact (opField_encode _ _).trans (by decide : opNumber defaultOpMap .jmp = 15)

end Sys2Proof.Machine
end

section
/-! PROOFS. The console family (46_io.md): `printr` reads one register and writes the output port, so its next state is one `emit`. -/

namespace Sys2Proof.Machine

open Sys2Proof

/-- The next state of a `printr` of a register (R138). -/
theorem exec_printr_of_names {r1 : RegField} {a : RegIdx} (ha : Names r1 a) (s : State) :
    exec (.printr r1) s = .next (s.emit (s.reg a)).advance :=
  (exec_printr r1 s).trans (useReg_ok r1 a ha s _)

/-- One value put out and `pc` moved on: the frame of `printr`. -/
theorem keeps_emit_advance (s : State) (v : Word) :
    KeepsRegsBut [] s (s.emit v).advance ∧ KeepsMemory s (s.emit v).advance ∧ KeepsStatus s (s.emit v).advance ∧
      KeepsParams s (s.emit v).advance :=
  ⟨fun k _ => State.reg_emit s v k, fun _ => rfl, ⟨rfl, rfl, rfl, rfl⟩, ⟨rfl, rfl, rfl, rfl, rfl⟩⟩

/-- Settles O53: the answer is one `emit` of the register and an advance, which leave everything but `OUT` and `pc`. -/
theorem printrEmitsRegister : Obligations.PrintrEmitsRegister := by
  unfold Obligations.PrintrEmitsRegister
  intro r1 s
  refine ⟨?_, fun a ha => ?_, fun h w hw => ?_⟩
  · exact (opField_encode _ _).trans (by decide : opNumber defaultOpMap .printr = 20)
  · exact ⟨_, exec_printr_of_names ha s, State.emit_out s _, rfl, rfl, keeps_emit_advance s _⟩
  · exact (exec_printr r1 s).trans (useReg_above h hw _)

end Sys2Proof.Machine
end

section
/-! PROOFS. The encoding (30_encoding.md): the decoder inverts the encoder, the encoder inverts the cut into fields but for bit 16, and the
bits no form uses have no effect. -/

namespace Sys2Proof

open Sys2Proof.Machine

/-! ### The round trip of an instruction (R60) -/

/-- The fields of an encoded word are the fields it was made of. -/
theorem decodeFields_encodeFields (f : Fields) : decodeFields (encodeFields f) = f := by
  rw [decodeFields, opField_encodeFields, r1Field_encodeFields, r2Field_encodeFields, immField_encodeFields]

/-- An instruction is what its own operation makes of its canonical fields: no field its form uses is lost (R54, R59). -/
theorem instrOfFields_fieldsOfInstr (m : OpMap) (i : Instr) : instrOfFields (opOfInstr i) (fieldsOfInstr m i) = i := by
  cases i <;> rfl

/-- Under a well-formed map the decoder inverts the encoder, on ill-formed instructions too (R55, R60). -/
theorem decode_encode (m : OpMap) (hm : m.wf = true) (i : Instr) : decode m (encode m i) = .instr i := by
  rw [decode_eq_instr_iff]
  refine ⟨opOfInstr i, ?_, ?_⟩
  · rw [encode, opField_encodeFields, fieldsOfInstr_op, opOf_opNumber m hm]
  · rw [encode, decodeFields_encodeFields, instrOfFields_fieldsOfInstr]

/-- Settles O5: the number of the operation selects it again, and the fields come back one by one. -/
theorem decodeOfEncodeIsIdentity : Obligations.DecodeOfEncodeIsIdentity := by
  unfold Obligations.DecodeOfEncodeIsIdentity
  exact ⟨defaultOpMap_wf, fun m i hm => decode_encode m hm i⟩

/-! ### The round trip of a word (R52, R60) -/

/-- The mask of bit 16 keeps every other bit of a word. -/
theorem getLsbD_mask16 {k : Nat} (hk : k < 32) : (0xFFFEFFFF : Word).getLsbD k = decide (k ≠ 16) := by
  revert k
  decide

/-- The fields of a word put in their places are the word with bit 16 cleared (R52, R60). -/
theorem encodeFields_decodeFields (w : Word) : encodeFields (decodeFields w) = w &&& 0xFFFEFFFF := by
  apply BitVec.eq_of_getLsbD_eq
  intro k hk
  rw [BitVec.getLsbD_and, getLsbD_mask16 hk]
  simp only [encodeFields, decodeFields, opField, r1Field, r2Field, immField, BitVec.getLsbD_append, BitVec.getLsbD_extractLsb']
  by_cases himm : k < 16
  · simp [himm, show k ≠ 16 by omega]
  by_cases hbit : k = 16
  · simp [hbit]
  by_cases hr2 : k < 22
  · rw [if_neg himm, if_neg (by omega), if_pos (by omega), show 17 + (k - 16 - 1) = k by omega]
    simp [hbit, show k - 16 - 1 < 5 by omega]
  by_cases hr1 : k < 27
  · rw [if_neg himm, if_neg (by omega), if_neg (by omega), if_pos (by omega), show 22 + (k - 16 - 1 - 5) = k by omega]
    simp [hbit, show k - 16 - 1 - 5 < 5 by omega]
  · rw [if_neg himm, if_neg (by omega), if_neg (by omega), if_neg (by omega), show 27 + (k - 16 - 1 - 5 - 5) = k by omega]
    simp [hbit, show k - 16 - 1 - 5 - 5 < 5 by omega]

/-- Settles O6: bit by bit, `encodeFields_decodeFields`. -/
theorem encodeOfFieldsClearsBit16 : Obligations.EncodeOfFieldsClearsBit16 := by
  unfold Obligations.EncodeOfFieldsClearsBit16
  exact encodeFields_decodeFields

/-! ### The ignored bits (R52, R54, R76) -/

/-- Words that agree under a mask agree on every field that lies inside the mask. -/
theorem extractLsb'_eq_of_and_eq {w w' m : Word} (h : w &&& m = w' &&& m) (start len : Nat)
    (hm : m.extractLsb' start len = BitVec.allOnes len) : w.extractLsb' start len = w'.extractLsb' start len := by
  have h' := congrArg (BitVec.extractLsb' start len) h
  rwa [BitVec.extractLsb'_and, BitVec.extractLsb'_and, hm, BitVec.and_allOnes, BitVec.and_allOnes] at h'

/-- The opcode is among the used bits of every form (R54). -/
theorem opField_eq_of_usedBits {w w' : Word} {o : Op} (h : w &&& usedBits o = w' &&& usedBits o) : opField w = opField w' :=
  extractLsb'_eq_of_and_eq h 27 5 (by cases o <;> rfl)

/-- Under words that agree on the used bits, an operation makes the same instruction: each field its form uses lies inside the mask. -/
theorem instrOfFields_eq_of_usedBits {w w' : Word} {o : Op} (h : w &&& usedBits o = w' &&& usedBits o) :
    instrOfFields o (decodeFields w) = instrOfFields o (decodeFields w') := by
  have field := extractLsb'_eq_of_and_eq h
  cases o with
  | ret => rfl
  | je | jl | jle | jge | jbe | jmp | call => simp only [instrOfFields, decodeFields, immField, field 0 16 rfl]
  | shrl | pushl | popl | printr | readr => simp only [instrOfFields, decodeFields, r1Field, field 22 5 rfl]
  | subl | addlImmReg | movlImmReg => simp only [instrOfFields, decodeFields, r1Field, immField, field 22 5 rfl, field 0 16 rfl]
  | addlRegReg | imull | movlRegReg | cmpl => simp only [instrOfFields, decodeFields, r1Field, r2Field, field 22 5 rfl, field 17 5 rfl]
  | movlDerefReg | movlRegDeref =>
    simp only [instrOfFields, decodeFields, r1Field, r2Field, immField, field 22 5 rfl, field 17 5 rfl, field 0 16 rfl]

/-- Settles O7: the opcode selects the same operation in both words, and the operation reads the same fields. -/
theorem ignoredBitsDoNotChangeDecoding : Obligations.IgnoredBitsDoNotChangeDecoding := by
  unfold Obligations.IgnoredBitsDoNotChangeDecoding
  intro m w w' o ho h
  have hw : decode m w = .instr (instrOfFields o (decodeFields w)) := (decode_eq_instr_iff m w _).mpr ⟨o, ho, rfl⟩
  have hw' : decode m w' = .instr (instrOfFields o (decodeFields w')) :=
    (decode_eq_instr_iff m w' _).mpr ⟨o, opField_eq_of_usedBits h ▸ ho, rfl⟩
  rw [hw, hw', instrOfFields_eq_of_usedBits h]

/-! ### Words written out, and the immediate (R53, 95_test_vectors.md) -/

/-- Settles O4: the decoder evaluated on each listed word. -/
theorem listedWordsDecode : Obligations.ListedWordsDecode := by
  unfold Obligations.ListedWordsDecode
  decide

/-- Settles O8: the sign extension keeps the signed value, which 16 bits hold. -/
theorem immediateIsSignExtended : Obligations.ImmediateIsSignExtended := by
  unfold Obligations.ImmediateIsSignExtended
  refine ⟨fun v => ?_, by decide, by decide, by decide⟩
  rw [toInt_sext32]
  have hlower := BitVec.le_toInt v
  have hupper := BitVec.toInt_lt (x := v)
  omega

/-! ### The program image (R63) -/

/-- The four bytes of a word in the image's byte order. -/
def imageBytes (e : Endian) (w : Word) : List Byte := [byteOfWord e w 0, byteOfWord e w 1, byteOfWord e w 2, byteOfWord e w 3]

/-- The bytes of words are cut back into the words, in either byte order. -/
theorem imageWords_flatMap_imageBytes (e : Endian) (ws : List Word) : imageWords e (ws.flatMap (imageBytes e)) = some ws := by
  induction ws with
  | nil => rfl
  | cons w ws ih =>
    rw [List.flatMap_cons, imageBytes]
    simp only [List.cons_append, List.nil_append, imageWords, ih, wordOfBytes_byteOfWord, Option.map_some]

/-- An image that is cut into words has a multiple of four bytes. -/
theorem length_of_imageWords (e : Endian) (bytes : List Byte) (ws : List Word) (h : imageWords e bytes = some ws) :
    bytes.length = 4 * ws.length := by
  induction bytes using imageWords.induct generalizing ws with
  | case1 =>
    cases h
    rfl
  | case2 b0 b1 b2 b3 rest ih =>
    obtain ⟨vs, hvs, rfl⟩ := Option.map_eq_some_iff.mp h
    simp only [List.length_cons, ih vs hvs]
    omega
  | case3 bytes hnil hcons =>
    rw [imageWords] at h
    · cases h
    · exact hnil
    · exact hcons

/-- Settles O9: words survive the round trip through their bytes, and only a multiple of four bytes is cut at all. -/
theorem imageIsCutIntoItsWords : Obligations.ImageIsCutIntoItsWords := by
  unfold Obligations.ImageIsCutIntoItsWords
  refine ⟨imageWords_flatMap_imageBytes, fun e bytes hragged => ?_⟩
  rw [Option.eq_none_iff_forall_ne_some]
  intro ws hws
  have := length_of_imageWords e bytes ws hws
  omega

end Sys2Proof
end

section
/-! PROOFS. The step (40_step_and_dispatch.md, 60_exceptions.md): what it does at each kind of fetch, and what it can do at all, said once
in `StepEffect`. -/

namespace Sys2Proof.Machine

open Sys2Proof

/-! ### The fetched word -/

section Fetched

variable {s : State} {w : Word}

theorem Fetches.fetch_eq (h : Fetches s w) : fetch s = .word w := by
  obtain ⟨-, -, haligned, hword⟩ := h
  exact (fetch_eq_word_iff s w).mpr ⟨haligned, hword⟩

theorem Fetches.instrWord_eq (h : Fetches s w) : s.instrWord = some w := by
  obtain ⟨-, -, -, hword⟩ := h
  exact hword

theorem Fetches.step_eq_exec (h : Fetches s w) {i : Instr} (hd : decode s.opMap w = .instr i) : step s = exec i s := by
  have hfetch := h.fetch_eq
  obtain ⟨hl, hr, -, -⟩ := h
  exact step_executes s w i hl ⟨hr, hfetch, hd⟩

theorem Executes.fetches {i : Instr} (h : Executes s w i) (hl : s.imem.length ≤ maxInstr) : Fetches s w := by
  obtain ⟨haligned, hword⟩ := (fetch_eq_word_iff s w).mp h.fetched
  exact ⟨hl, h.running, haligned, hword⟩

end Fetched

/-- Settles O10: the fetch finds the word, the decoder the instruction. -/
theorem stepRunsDecodedInstruction : Obligations.StepRunsDecodedInstruction := by
  unfold Obligations.StepRunsDecodedInstruction
  exact fun s w i h hd => h.step_eq_exec hd

/-- Settles O19: a fetched `pc` is below 4 * (2^30 - 1). -/
theorem fetchedPcPlusFourNeverWraps : Obligations.FetchedPcPlusFourNeverWraps := by
  unfold Obligations.FetchedPcPlusFourNeverWraps
  rintro s w ⟨hlength, -, -, hword⟩
  have hinside := (List.getElem?_eq_some_iff.mp hword).1
  have hbound : s.pc.toNat + 4 < 2 ^ 32 := by
    rw [maxInstr] at hlength
    omega
  rw [BitVec.toNat_add]
  exact Nat.mod_eq_of_lt hbound

/-! ### Where nothing is fetched (R20, R71, R77) -/

theorem step_at_end (s : State) (hl : s.imem.length ≤ maxInstr) (hr : s.runState = .running) (hpc : s.pc.toNat = 4 * s.imem.length) :
    step s = .next (s.halt .haltedEnd) := by
  rw [step_running s hl hr, (fetch_eq_end_iff s).mpr hpc]

/-- Settles O14: the fetch finds the end of the program there (`step_at_end`). -/
theorem sentinelHaltsAtEnd : Obligations.SentinelHaltsAtEnd := by
  unfold Obligations.SentinelHaltsAtEnd
  exact step_at_end

/-- Settles O13: the fetch finds no instruction there (`fetch_eq_badPc_iff`). -/
theorem badPcRaisesFetchFault : Obligations.BadPcRaisesFetchFault := by
  unfold Obligations.BadPcRaisesFetchFault
  intro s hl hr hpc
  rw [step_running s hl hr, (fetch_eq_badPc_iff s).mpr hpc, fetchFault]

/-- Settles O16: `step_stopped`, for both halts and for `FAULTED`. -/
theorem terminalStatesStay : Obligations.TerminalStatesStay := by
  unfold Obligations.TerminalStatesStay
  exact step_stopped

/-! ### An unknown opcode (R57, R75) -/

/-- The opcode is the word divided by 2^27. -/
theorem toNat_opField (w : Word) : (opField w).toNat = w.toNat / 134217728 := by
  rw [opField, BitVec.extractLsb'_toNat, Nat.shiftRight_eq_div_pow]
  have := w.isLt
  omega

theorem step_unknownOpcode {s : State} {w : Word} (h : Fetches s w) (hop : opOf s.opMap (opField w) = none) :
    step s = unknownOpcode w s := by
  have hfetch := h.fetch_eq
  obtain ⟨hl, hr, -, -⟩ := h
  rw [step_running s hl hr, hfetch]
  simp only [(decode_eq_unknown_iff s.opMap w _).mpr ⟨hop, rfl⟩]

/-- The two answers at an unknown opcode. -/
theorem unknownOpcode_next {s t : State} {w : Word} (h : unknownOpcode w s = .next t) : t = s.raise .decodeError w ∨ t = s.advance := by
  unfold unknownOpcode at h
  split at h
  · exact .inl (Host.Outcome.next.inj h).symm
  · exact .inr (Host.Outcome.next.inj h).symm

/-- Settles O11: the words from 0xB0000000 on have an opcode of 22 or more; the step at one is `unknownOpcode`, which reads the policy. -/
theorem unknownOpcodeFollowsPolicy : Obligations.UnknownOpcodeFollowsPolicy := by
  unfold Obligations.UnknownOpcodeFollowsPolicy
  refine ⟨fun w => ?_, fun s w h hop => ⟨fun hpolicy => ?_, fun hpolicy => ?_⟩⟩
  · rw [opOf_eq_none_iff, toNat_opField]
    omega
  · rw [step_unknownOpcode h hop, unknownOpcode, hpolicy]
  · rw [step_unknownOpcode h hop, unknownOpcode, hpolicy, State.advance]

/-! ### A bad register field (R72, R148) -/

theorem not_regFieldOk_iff (r : RegField) : ¬ regFieldOk r = true ↔ 16 < r.toNat := by
  rw [regFieldOk, decide_eq_true_iff]
  omega

theorem not_regFieldsOk_iff (r1 r2 : RegField) : ¬ (regFieldOk r1 && regFieldOk r2) = true ↔ 16 < r1.toNat ∨ 16 < r2.toNat := by
  rw [Bool.and_eq_true, not_and_or, not_regFieldOk_iff, not_regFieldOk_iff]

/-- The register check comes first: an ill-formed instruction is nothing but the fault of R148. -/
theorem exec_illFormed {i : Instr} (hi : ¬ i.WellFormed) (s : State) : exec i s = regIndexFault s := by
  cases i with
  | je | jl | jle | jge | jbe | jmp | call | ret => exact absurd rfl hi
  | subl r1 | addlImmReg r1 | shrl r1 | movlImmReg r1 | pushl r1 | popl r1 | printr r1 | readr r1 =>
    rw [exec]
    exact useReg_bad r1 ((not_regFieldOk_iff r1).mp hi) s _
  | addlRegReg r1 r2 | imull r1 r2 | movlRegReg r1 r2 | movlDerefReg r1 r2 | movlRegDeref r1 r2 | cmpl r1 r2 =>
    rw [exec]
    exact useRegs_bad r1 r2 ((not_regFieldsOk_iff r1 r2).mp hi) s _

/-- Settles O12: the step is the instruction, the instruction is the register fault, and the word at `pc` is the one fetched. -/
theorem badRegisterFieldRaisesRegIndexFault : Obligations.BadRegisterFieldRaisesRegIndexFault := by
  unfold Obligations.BadRegisterFieldRaisesRegIndexFault
  intro s w i h hd hi
  rw [h.step_eq_exec hd, exec_illFormed hi, regIndexFault_of_word s w h.instrWord_eq]

/-! ### The top-level `ret` (R127) -/

/-- Settles O48: the comparison with `INIT_SP` comes before the pop. -/
theorem retAtTopLevelHalts : Obligations.RetAtTopLevelHalts := by
  unfold Obligations.RetAtTopLevelHalts
  exact fun s hsp => if_pos hsp

/-! ### What a step can do -/

/-- What a step from a running state can do: a fault, one of the two halts, or an effect of an instruction that leaves the run state, the
fault record and the parameters. -/
inductive StepEffect (s t : State) : Prop
  /-- Fault entry, with a record that says what R146 to R149 say. -/
  | fault (c : FaultCause) (info : Word) (record : (s.raise c info).FaultRecordSays) (eq : t = s.raise c info)
  /-- The halt at the sentinel (R77). -/
  | haltEnd (atEnd : s.pc.toNat = 4 * s.imem.length) (eq : t = s.halt .haltedEnd)
  /-- The halt of a top-level `ret` (R127). -/
  | haltRet (w : Word) (fetched : Fetches s w) (decoded : decode s.opMap w = .instr .ret) (top : s.sp = initSp)
      (eq : t = s.halt .haltedRet)
  /-- The machine goes on: at most one legal word stored, at most one value taken. -/
  | goesOn (status : KeepsStatus s t) (params : KeepsParams s t)
      (stored : t.mem = s.mem ∨ ∃ addr v, addr ≤ 1020 ∧ t.mem = s.mem.writeWord s.dataEndian addr v)
      (taken : t.inPos = s.inPos ∨ s.inPos < s.input.length ∧ t.inPos = s.inPos + 1)

theorem exec_effect {s t : State} {w : Word} {i : Instr} (hf : Fetches s w) (hd : decode s.opMap w = .instr i)
    (h : exec i s = .next t) : StepEffect s t := by
  obtain ⟨v, hv, hi, ht⟩ | ⟨-, ⟨addr, haddr, ht⟩ | ⟨rfl, hsp, ht⟩ | ⟨hstatus, hparams, hmem, -, hin⟩⟩ :=
    exec_next_cases i s t h
  · obtain rfl : v = w := Option.some.inj (hv.symm.trans hf.instrWord_eq)
    exact .fault .regIndexFault v ⟨hv, i, hd, hi⟩ ht
  · exact .fault .memoryFault addr haddr ht
  · exact .haltRet w hf hd hsp ht
  · exact .goesOn hstatus hparams hmem (hin.imp_right fun ⟨_, _, hlt, hpos⟩ => ⟨hlt, hpos⟩)

/-- Every next state of a running machine comes by one of the four effects. -/
theorem step_effect {s t : State} (hr : s.runState = .running) (h : step s = .next t) : StepEffect s t := by
  obtain ⟨hl, ⟨hne, -⟩ | ⟨-, hend, ht⟩ | ⟨-, hbad, ht⟩ | ⟨w, -, hword, hop, hu⟩ | ⟨w, i, hx, he⟩⟩ :=
    step_next_cases s t h
  · exact absurd hr hne
  · exact .haltEnd ((fetch_eq_end_iff s).mp hend) ht
  · exact .fault .fetchFault s.pc ⟨rfl, (fetch_eq_badPc_iff s).mp hbad⟩ ht
  · obtain rfl | rfl := unknownOpcode_next hu
    · exact .fault .decodeError w ⟨((fetch_eq_word_iff s w).mp hword).2, hop⟩ rfl
    · exact .goesOn ⟨rfl, rfl, rfl, rfl⟩ ⟨rfl, rfl, rfl, rfl, rfl⟩ (.inl rfl) (.inl rfl)
  · exact exec_effect (hx.fetches hl) hx.decoded he

/-- A step stays where it is or has one of the four effects. -/
theorem step_eq_or_effect {s t : State} (h : step s = .next t) : t = s ∨ s.runState = .running ∧ StepEffect s t := by
  by_cases hr : s.runState = .running
  · exact .inr ⟨hr, step_effect hr h⟩
  · rw [step_stopped s (step_next_cases s t h).1 hr] at h
    exact .inl (Host.Outcome.next.inj h).symm

/-- No effect takes input that was not supplied. -/
theorem StepEffect.inPos_le {s t : State} (h : StepEffect s t) (hs : s.inPos ≤ s.input.length) : t.inPos ≤ t.input.length := by
  cases h with
  | fault _ _ _ eq | haltEnd _ eq | haltRet _ _ _ _ eq => exact eq ▸ hs
  | goesOn _ params _ taken =>
    obtain ⟨-, hinput, -⟩ := params
    rw [hinput]
    omega

/-- Settles O15: each halt is one of the four effects, and where it is due the step answers it. -/
theorem haltsInExactlyTwoWays : Obligations.HaltsInExactlyTwoWays := by
  unfold Obligations.HaltsInExactlyTwoWays
  intro s t hr h
  have hl := (step_next_cases s t h).1
  refine ⟨⟨fun ht => ?_, fun hpc => ?_⟩, ⟨fun ht => ?_, fun ⟨w, hf, hd, hsp⟩ => ?_⟩⟩
  · cases step_effect hr h with
    | haltEnd atEnd => exact atEnd
    | fault c info _ eq | haltRet _ _ _ _ eq => simp [eq] at ht
    | goesOn status => simp [status.1, hr] at ht
  · rw [step_at_end s hl hr hpc] at h
    cases h
    rfl
  · cases step_effect hr h with
    | haltRet w fetched decoded top => exact ⟨w, fetched, decoded, top⟩
    | fault c info _ eq | haltEnd _ eq => simp [eq] at ht
    | goesOn status => simp [status.1, hr] at ht
  · rw [hf.step_eq_exec hd, retAtTopLevelHalts s hsp] at h
    cases h
    rfl

theorem State.FaultRecordSays.cause_ne_none {s : State} (h : s.FaultRecordSays) : s.faultCause ≠ .none := by
  intro hc
  rw [State.FaultRecordSays, hc] at h
  exact h

/-- The codes of the four faults (R145). -/
theorem FaultCause.code_range {c : FaultCause} (h : c ≠ .none) : 1 ≤ c.code.toNat ∧ c.code.toNat ≤ 4 := by
  cases c with
  | none => exact absurd rfl h
  | fetchFault | decodeError | regIndexFault | memoryFault => decide

/-- Settles O18: of the four effects only a fault leads into `FAULTED`, and its record names one of the four faults. -/
theorem faultsArePrecise : Obligations.FaultsArePrecise := by
  unfold Obligations.FaultsArePrecise
  refine ⟨fun s t hr h ht => ?_, rfl, rfl, rfl, rfl, rfl⟩
  cases step_effect hr h with
  | fault c info record eq =>
    subst eq
    obtain ⟨hlow, hhigh⟩ := FaultCause.code_range record.cause_ne_none
    exact ⟨hlow, hhigh, rfl⟩
  | haltEnd _ eq | haltRet _ _ _ _ eq => simp [eq] at ht
  | goesOn status => simp [status.1, hr] at ht

theorem keepsParams_refl (s : State) : KeepsParams s s := ⟨rfl, rfl, rfl, rfl, rfl⟩

/-- Settles O20: a terminal state stays, and no effect writes a parameter. -/
theorem stepKeepsParameters : Obligations.StepKeepsParameters := by
  unfold Obligations.StepKeepsParameters
  intro s t h
  obtain rfl | ⟨-, heffect⟩ := step_eq_or_effect h
  · exact keepsParams_refl t
  · cases heffect with
    | fault _ _ _ eq | haltEnd _ eq | haltRet _ _ _ _ eq => exact eq ▸ keepsParams_refl s
    | goesOn _ params => exact params

end Sys2Proof.Machine
end

section
/-! PROOFS. The invariant (10_state.md section 6, 60_exceptions.md, 70_reset_and_hazards.md): it holds at every start, each effect of a step
keeps it, and so does each move of the host. -/

namespace Sys2Proof.Machine

open Sys2Proof

/-! ### Reset and the start of a run -/

/-- Settles O2: each field of `State.reset` as written. -/
theorem resetStatusStreamsParameters : Obligations.ResetStatusStreamsParameters := by
  unfold Obligations.ResetStatusStreamsParameters
  exact ⟨rfl, rfl, rfl, rfl, rfl, rfl, rfl, rfl, rfl, rfl, rfl⟩

/-- Settles O3: an asserted reset is `State.reset` with the parameters put back. -/
theorem assertedResetKeepsOnlyParameters : Obligations.AssertedResetKeepsOnlyParameters := by
  unfold Obligations.AssertedResetKeepsOnlyParameters
  exact fun s => ⟨keepsParams_refl s, fun _ => rfl, rfl, Memory.readByte_nil, rfl, rfl, rfl, rfl, rfl, rfl⟩

/-- The start of a run meets the invariant: empty memory, nothing taken, no fault recorded. -/
theorem startRun_inv (imem input : List Word) (m : OpMap) (p : UnknownOpcodePolicy) (e : Endian) (hl : imem.length ≤ maxInstr)
    (hm : m.wf = true) : (startRun imem input m p e).Inv :=
  ⟨Memory.wf_nil, hl, hm, Nat.zero_le _, ⟨rfl, rfl, rfl⟩⟩

/-- Settles O59: `State.reset` and the start of a run with its arguments are both a `startRun`. -/
theorem invariantHoldsAtStart : Obligations.InvariantHoldsAtStart := by
  unfold Obligations.InvariantHoldsAtStart
  exact ⟨startRun_inv [] [] defaultOpMap _ _ (Nat.zero_le _) defaultOpMap_wf, startRun_inv,
    fun a hl hm => startRun_inv a.imem [] a.opMap a.policy a.endian hl hm⟩

/-! ### The step -/

/-- A legal word write keeps the canonical form (R32). -/
theorem Memory.wf_of_stored {m n : Memory} {e : Endian} (hm : m.wf)
    (h : n = m ∨ ∃ addr v, addr ≤ 1020 ∧ n = m.writeWord e addr v) : n.wf := by
  obtain rfl | ⟨addr, v, haddr, rfl⟩ := h
  · exact hm
  · exact Memory.wf_writeWord m e addr v hm (by rw [memSize]; omega)

/-- Each effect of a step keeps the invariant. -/
theorem StepEffect.inv {s t : State} (h : StepEffect s t) (hr : s.runState = .running) (hs : s.Inv) : t.Inv := by
  obtain ⟨hmem, hlength, hmap, hpos, hstatus⟩ := hs
  have hclear : s.NoFaultRecorded := by
    rwa [State.StatusSays, hr] at hstatus
  have hpos' := h.inPos_le hpos
  cases h with
  | fault c info record eq =>
    subst eq
    exact ⟨hmem, hlength, hmap, hpos', rfl, record⟩
  | haltEnd atEnd eq =>
    subst eq
    exact ⟨hmem, hlength, hmap, hpos', hclear, atEnd⟩
  | haltRet _ _ _ top eq =>
    subst eq
    exact ⟨hmem, hlength, hmap, hpos', hclear, top⟩
  | goesOn status params stored =>
    obtain ⟨hrun, hcause, hfpc, hinfo⟩ := status
    obtain ⟨himem, -, hopMap, -, -⟩ := params
    refine ⟨Memory.wf_of_stored hmem stored, himem ▸ hlength, hopMap ▸ hmap, hpos', ?_⟩
    obtain ⟨hnone, hpc0, hinfo0⟩ := hclear
    rw [State.StatusSays, hrun, hr]
    exact ⟨hcause.trans hnone, hfpc.trans hpc0, hinfo.trans hinfo0⟩

theorem step_inv {s t : State} (hs : s.Inv) (h : step s = .next t) : t.Inv := by
  obtain rfl | ⟨hr, heffect⟩ := step_eq_or_effect h
  · exact hs
  · exact heffect.inv hr hs

/-! ### The moves of the host and the run -/

/-- One value more at the port keeps the invariant. -/
theorem State.Inv.deliver {s : State} (hs : s.Inv) (v : Word) : (s.deliver v).Inv := by
  obtain ⟨hmem, hlength, hmap, hpos, hstatus⟩ := hs
  refine ⟨hmem, hlength, hmap, ?_, hstatus⟩
  rw [State.deliver_input, List.length_append]
  exact Nat.le_add_right_of_le hpos

/-- What the console of a run does keeps the invariant. -/
theorem State.Inv.feed {s : State} (hs : s.Inv) (q : InputSeq) : (s.feed q).Inv := by
  obtain ⟨he, -⟩ | ⟨v, -, -, he⟩ := State.feed_cases s q <;> rw [he]
  · exact hs
  · exact hs.deliver v

/-- An answer of the host is one more value at the port, in a state that waits for it (R177). -/
theorem State.supplyInput_eq_some_iff (s u : State) (v : Word) :
    s.supplyInput v = some u ↔ s.awaitsInput = true ∧ u = s.deliver v := by
  rw [State.supplyInput, Option.ite_none_right_eq_some, Option.some.injEq, eq_comm (b := u)]

theorem hostMove_inv {s t : State} {h : HostMove} (hs : s.Inv) (ht : s.hostMove h = some t) : t.Inv := by
  cases h with
  | reset =>
    obtain ⟨-, hlength, hmap, -, -⟩ := hs
    exact Option.some.inj ht ▸ startRun_inv s.imem s.input s.opMap s.unknownPolicy s.dataEndian hlength hmap
  | answer v =>
    obtain ⟨-, rfl⟩ := (State.supplyInput_eq_some_iff s t v).mp ht
    exact hs.deliver v

/-- Settles O60: each effect of a step keeps the invariant, a terminal state stays, and a move of the host is a start of a run or one more
value at the port. -/
theorem invariantKeptByStep : Obligations.InvariantKeptByStep := by
  unfold Obligations.InvariantKeptByStep
  exact ⟨fun s t hs h => step_inv hs h, fun q s t hs h => step_inv (hs.feed q) h, fun h s t hs ht => hostMove_inv hs ht⟩

end Sys2Proof.Machine
end

section
/-! PROOFS. What every instruction does, by one rule per shared operation: a property of answers holds of the operation when it holds of its
faults and of what follows it. From these come the totality of the step (R70) and the memory frame (R30). -/

namespace Sys2Proof.Machine

open Sys2Proof

/-! ### One rule per shared operation -/

section Rules

variable (P : StepResult → Prop) {s : State}

theorem useReg_rule {r : RegField} {f : RegIdx → StepResult} (hbad : P (regIndexFault s)) (h : ∀ a, Names r a → P (f a)) :
    P (useReg r s f) := by
  obtain ⟨a, ha, e⟩ | ⟨-, e⟩ := useReg_cases r s f <;> rw [e]
  · exact h a ha
  · exact hbad

theorem useRegs_rule {r1 r2 : RegField} {f : RegIdx → RegIdx → StepResult} (hbad : P (regIndexFault s))
    (h : ∀ a b, Names r1 a → Names r2 b → P (f a b)) : P (useRegs r1 r2 s f) :=
  useReg_rule P hbad fun a ha => useReg_rule P hbad fun b hb => h a b ha hb

theorem loadWord_rule {addr : Word} {f : Word → StepResult} (hillegal : P (.next (s.raise .memoryFault addr)))
    (h : ∀ v, P (f v)) : P (loadWord addr s f) := by
  unfold loadWord
  split
  · exact h _
  · exact hillegal

theorem storeWord_rule {addr v : Word} {f : State → StepResult} (hillegal : P (.next (s.raise .memoryFault addr)))
    (h : P (f (s.setMem (s.mem.writeWord s.dataEndian addr.toNat v)))) : P (storeWord addr v s f) := by
  unfold storeWord
  split
  · exact h
  · exact hillegal

end Rules

/-! ### Totality (R70) -/

/-- The answer is a next state. -/
def Answers (r : StepResult) : Prop := ∃ t, r = .next t

theorem answers_next (t : State) : Answers (.next t) := ⟨t, rfl⟩

/-- Where a word stands at `pc`, every instruction answers a next state, faults included (R150). -/
theorem exec_answers {s : State} {w : Word} (hw : s.instrWord = some w) (i : Instr) : Answers (exec i s) := by
  have hbad : Answers (regIndexFault s) := ⟨_, regIndexFault_of_word s w hw⟩
  cases i with
  | subl | addlImmReg | shrl | movlImmReg | printr =>
    rw [exec]
    exact useReg_rule Answers hbad fun _ _ => answers_next _
  | addlRegReg | imull | movlRegReg | cmpl =>
    rw [exec]
    exact useRegs_rule Answers hbad fun _ _ _ _ => answers_next _
  | movlDerefReg =>
    rw [exec]
    exact useRegs_rule Answers hbad fun _ _ _ _ => loadWord_rule Answers (answers_next _) fun _ => answers_next _
  | movlRegDeref =>
    rw [exec]
    exact useRegs_rule Answers hbad fun _ _ _ _ => storeWord_rule Answers (answers_next _) (answers_next _)
  | je | jl | jle | jge | jbe | jmp => exact answers_next _
  | call =>
    rw [exec]
    exact storeWord_rule Answers (answers_next _) (answers_next _)
  | ret =>
    rw [exec, execRet]
    split
    · exact answers_next _
    · exact loadWord_rule Answers (answers_next _) fun _ => answers_next _
  | pushl =>
    rw [exec]
    exact useReg_rule Answers hbad fun _ _ => storeWord_rule Answers (answers_next _) (answers_next _)
  | popl =>
    rw [exec]
    exact useReg_rule Answers hbad fun _ _ => loadWord_rule Answers (answers_next _) fun _ => answers_next _
  | readr =>
    rw [exec]
    refine useReg_rule Answers hbad fun a _ => ?_
    cases s.nextInput with
    | none => exact answers_next _
    | some v => exact answers_next _

theorem unknownOpcode_answers (w : Word) (s : State) : Answers (unknownOpcode w s) := by
  unfold unknownOpcode
  cases s.unknownPolicy with
  | fault => exact answers_next _
  | nop => exact answers_next _

theorem step_answers (s : State) (hl : s.imem.length ≤ maxInstr) : Answers (step s) := by
  by_cases hr : s.runState = .running
  swap
  · exact ⟨s, step_stopped s hl hr⟩
  cases hf : fetch s with
  | endOfProgram => exact ⟨_, step_at_end s hl hr ((fetch_eq_end_iff s).mp hf)⟩
  | badPc => exact ⟨_, badPcRaisesFetchFault s hl hr ((fetch_eq_badPc_iff s).mp hf)⟩
  | word w =>
    obtain ⟨haligned, hword⟩ := (fetch_eq_word_iff s w).mp hf
    have hfetches : Fetches s w := ⟨hl, hr, haligned, hword⟩
    cases hd : decode s.opMap w with
    | unknownOpcode n =>
      rw [step_unknownOpcode hfetches ((decode_eq_unknown_iff s.opMap w n).mp hd).1]
      exact unknownOpcode_answers w s
    | instr i =>
      rw [hfetches.step_eq_exec hd]
      exact exec_answers hword i

/-- Settles O17: the fetch gives the instruction its word, so even the register fault answers; past the bound the step refuses first. -/
theorem stepAnswersNextState : Obligations.StepAnswersNextState := by
  unfold Obligations.StepAnswersNextState
  exact fun s => ⟨step_answers s, fun hlong => if_pos hlong⟩

/-! ### The memory frame (R30, R34) -/

/-- Where the answer is a next state, the byte at `x` is there what it was in `s`. -/
def AnswerKeepsByte (x : Nat) (s : State) (r : StepResult) : Prop := ∀ t, r = .next t → t.mem.readByte x = s.mem.readByte x

section MemoryFrame

variable {x : Nat} {s : State}

theorem answerKeepsByte_next {t : State} (h : t.mem.readByte x = s.mem.readByte x) : AnswerKeepsByte x s (.next t) := by
  rintro _ ⟨⟩
  exact h

theorem answerKeepsByte_regIndexFault : AnswerKeepsByte x s (regIndexFault s) := by
  intro t ht
  obtain ⟨w, -, rfl⟩ := regIndexFault_next s t ht
  rfl

/-- A stored word leaves a byte outside its four addresses, whatever follows, as long as that writes no memory. -/
theorem answerKeepsByte_storeWord {addr v : Word} {f : State → StepResult} (hx : x < addr.toNat ∨ addr.toNat + 4 ≤ x)
    (hf : ∀ u, ∃ t, f u = .next t ∧ t.mem = u.mem) : AnswerKeepsByte x s (storeWord addr v s f) := by
  refine storeWord_rule (AnswerKeepsByte x s) (answerKeepsByte_next rfl) ?_
  obtain ⟨t, ht, hmem⟩ := hf (s.setMem (s.mem.writeWord s.dataEndian addr.toNat v))
  rw [ht]
  refine answerKeepsByte_next ?_
  rw [hmem]
  exact keepsMemoryBut_of_writeWord (s := s) rfl x hx

theorem answerKeepsByte_branchIf (c : Bool) (imm : Imm16) : AnswerKeepsByte x s (branchIf c imm s) := by
  cases c with
  | true => exact answerKeepsByte_next rfl
  | false => exact answerKeepsByte_next rfl

end MemoryFrame

theorem storeAddr_movlRegDeref {r2 : RegField} {b : RegIdx} (hb : Names r2 b) (r1 : RegField) (imm : Imm16) (s : State) :
    storeAddr (.movlRegDeref r1 r2 imm) s = some (effAddr s b imm) := by
  have hlt : r2.toNat < 17 := hb ▸ b.isLt
  rw [storeAddr, dif_pos hlt]
  exact congrArg (fun c => some (effAddr s c imm)) (Fin.ext hb)

/-- No instruction changes a byte outside the word it stores. -/
theorem exec_keeps_unstored_byte (i : Instr) (s : State) (x : Nat)
    (hx : ∀ addr, storeAddr i s = some addr → x < addr.toNat ∨ addr.toNat + 4 ≤ x) : AnswerKeepsByte x s (exec i s) := by
  have hbad : AnswerKeepsByte x s (regIndexFault s) := answerKeepsByte_regIndexFault
  have hsame {t : State} (h : t.mem = s.mem) : AnswerKeepsByte x s (.next t) := answerKeepsByte_next (h ▸ rfl)
  cases i with
  | subl | addlImmReg | shrl | movlImmReg | printr =>
    rw [exec]
    exact useReg_rule _ hbad fun _ _ => hsame rfl
  | addlRegReg | imull | movlRegReg | cmpl =>
    rw [exec]
    exact useRegs_rule _ hbad fun _ _ _ _ => hsame rfl
  | movlDerefReg =>
    rw [exec]
    exact useRegs_rule _ hbad fun _ _ _ _ => loadWord_rule _ (hsame rfl) fun _ => hsame rfl
  | movlRegDeref r1 r2 imm =>
    rw [exec]
    refine useRegs_rule _ hbad fun a b _ hb => ?_
    exact answerKeepsByte_storeWord (hx _ (storeAddr_movlRegDeref hb r1 imm s)) fun _ => ⟨_, rfl, rfl⟩
  | je imm | jl imm | jle imm | jge imm | jbe imm | jmp imm =>
    exact answerKeepsByte_branchIf _ imm
  | call =>
    rw [exec]
    exact answerKeepsByte_storeWord (hx _ rfl) fun _ => ⟨_, rfl, rfl⟩
  | ret =>
    rw [exec, execRet]
    split
    · exact hsame rfl
    · exact loadWord_rule _ (hsame rfl) fun _ => hsame rfl
  | pushl =>
    rw [exec]
    exact useReg_rule _ hbad fun _ _ => answerKeepsByte_storeWord (hx _ rfl) fun _ => ⟨_, rfl, rfl⟩
  | popl =>
    rw [exec]
    exact useReg_rule _ hbad fun _ _ => loadWord_rule _ (hsame rfl) fun _ => hsame rfl
  | readr =>
    rw [exec]
    refine useReg_rule _ hbad fun a _ => ?_
    cases s.nextInput with
    | none => exact hsame rfl
    | some v => exact hsame rfl

/-- Settles O32: the frame `exec_keeps_unstored_byte`, read at a next state. -/
theorem memoryChangesOnlyWhereStored : Obligations.MemoryChangesOnlyWhereStored := by
  unfold Obligations.MemoryChangesOnlyWhereStored
  exact fun i s t h x hx => exec_keeps_unstored_byte i s x hx t h

/-! ### The register table, written (R14) -/

/-- Settles O33: the frame `exec_keeps_unmarked_reg`, read at a next state. -/
theorem onlyTableRegistersWritten : Obligations.OnlyTableRegistersWritten := by
  unfold Obligations.OnlyTableRegistersWritten
  exact fun i s t k h hk => exec_keeps_unmarked_reg i s k hk t h

end Sys2Proof.Machine
end

section
/-! PROOFS. The register table, read (R14): an instruction run on two states that differ in one register, which its row does not mark read,
gives next states that differ in that register at most. One rule per shared operation again, now on pairs of answers. -/

namespace Sys2Proof.Machine

open Sys2Proof

/-! ### One register written over -/

theorem State.setReg_setReg_same (s : State) (a : RegIdx) (v w : Word) : (s.setReg a v).setReg a w = s.setReg a w := by
  simp only [State.setReg, Vector.set_set]

theorem State.setReg_setReg_comm (s : State) {a b : RegIdx} (h : a ≠ b) (v w : Word) :
    (s.setReg a v).setReg b w = (s.setReg b w).setReg a v := by
  simp only [State.setReg, Vector.set_comm _ _ (Fin.val_ne_of_ne h)]

/-- A later register write either hides the one before it or passes it by. -/
theorem State.exists_setReg_setReg_swap (s : State) (k a : RegIdx) (v x : Word) :
    ∃ v', (s.setReg k v).setReg a x = (s.setReg a x).setReg k v' := by
  by_cases h : k = a
  · subst h
    exact ⟨x, by rw [State.setReg_setReg_same, State.setReg_setReg_same]⟩
  · exact ⟨v, State.setReg_setReg_comm s h v x⟩

/-! ### One rule per shared operation -/

/-- Where the first answer is a next state, the second is that state but for `x[k]`. -/
def AgreeBut (k : RegIdx) (r r' : StepResult) : Prop := ∀ t, r = .next t → ∃ v, r' = .next (t.setReg k v)

section Rules

variable {k : RegIdx} {s : State} {v : Word}

theorem agreeBut_next {t : State} : AgreeBut k (.next t) (.next (t.setReg k v)) := by
  rintro _ ⟨⟩
  exact ⟨v, rfl⟩

/-- The common answer: a register written and `pc` advanced. -/
theorem agreeBut_setReg_advance {a : RegIdx} {x : Word} :
    AgreeBut k (.next (s.setReg a x).advance) (.next ((s.setReg k v).setReg a x).advance) := by
  obtain ⟨v', h⟩ := State.exists_setReg_setReg_swap s k a v x
  rw [h]
  exact agreeBut_next (t := (s.setReg a x).advance)

theorem agreeBut_regIndexFault : AgreeBut k (regIndexFault s) (regIndexFault (s.setReg k v)) := by
  intro t ht
  obtain ⟨w, hw, rfl⟩ := regIndexFault_next s t ht
  exact ⟨v, regIndexFault_of_word (s.setReg k v) w hw⟩

theorem agreeBut_useReg {r : RegField} {f f' : RegIdx → StepResult} (h : ∀ a, Names r a → AgreeBut k (f a) (f' a)) :
    AgreeBut k (useReg r s f) (useReg r (s.setReg k v) f') := by
  obtain ⟨a, ha, e⟩ | ⟨hbad, e⟩ := useReg_cases r s f <;> rw [e]
  · rw [useReg_ok r a ha]
    exact h a ha
  · rw [useReg_bad r hbad]
    exact agreeBut_regIndexFault

theorem agreeBut_useRegs {r1 r2 : RegField} {f f' : RegIdx → RegIdx → StepResult}
    (h : ∀ a b, Names r1 a → Names r2 b → AgreeBut k (f a b) (f' a b)) :
    AgreeBut k (useRegs r1 r2 s f) (useRegs r1 r2 (s.setReg k v) f') :=
  agreeBut_useReg fun a ha => agreeBut_useReg fun b hb => h a b ha hb

theorem agreeBut_loadWord {addr : Word} {f f' : Word → StepResult} (h : ∀ x, AgreeBut k (f x) (f' x)) :
    AgreeBut k (loadWord addr s f) (loadWord addr (s.setReg k v) f') := by
  unfold loadWord
  split
  · exact h _
  · exact agreeBut_next (t := s.raise .memoryFault addr)

theorem agreeBut_storeWord {addr x : Word} {f f' : State → StepResult}
    (h : ∀ m, AgreeBut k (f (s.setMem m)) (f' ((s.setMem m).setReg k v))) :
    AgreeBut k (storeWord addr x s f) (storeWord addr x (s.setReg k v) f') := by
  unfold storeWord
  split
  · exact h _
  · exact agreeBut_next (t := s.raise .memoryFault addr)

theorem agreeBut_branchIf (c : Bool) (imm : Imm16) : AgreeBut k (branchIf c imm s) (branchIf c imm (s.setReg k v)) := by
  cases c with
  | true => exact agreeBut_next (t := s.jump imm)
  | false => exact agreeBut_next (t := s.advance)

end Rules

/-! ### What is read -/

section Unread

variable {k : RegIdx} {v : Word}

/-- A register that a field marked read names is not the unread one. -/
theorem ne_of_unread {r : RegField} {a : RegIdx} (h : (r.toNat == k.val) = false) (ha : Names r a) : a ≠ k := by
  rintro rfl
  exact beq_eq_false_iff_ne.mp h ha

theorem State.sp_setReg_of_unread (h : (k == spIdx) = false) (s : State) : (s.setReg k v).sp = s.sp :=
  State.reg_setReg_ne s k spIdx v (beq_eq_false_iff_ne.mp h).symm

theorem pushAddr_setReg_of_unread (h : (k == spIdx) = false) (s : State) : pushAddr (s.setReg k v) = pushAddr s := by
  rw [pushAddr, State.sp_setReg_of_unread h, pushAddr]

/-- The five conditional branches read `x[16]` only. -/
theorem agreeBut_branchIf_flags (h : (k == flagsIdx) = false) (cond : Word → Bool) (imm : Imm16) (s : State) :
    AgreeBut k (branchIf (cond s.flags) imm s) (branchIf (cond (s.setReg k v).flags) imm (s.setReg k v)) := by
  have hflags : (s.setReg k v).flags = s.flags := State.reg_setReg_ne s k flagsIdx v (beq_eq_false_iff_ne.mp h).symm
  rw [hflags]
  exact agreeBut_branchIf _ imm

end Unread

/-! ### Every instruction -/

/-- `ret` compares and loads through `x[6]` only. -/
theorem agreeBut_execRet {k : RegIdx} {v : Word} (hk : (k == spIdx) = false) (s : State) :
    AgreeBut k (execRet s) (execRet (s.setReg k v)) := by
  rw [execRet, execRet, State.sp_setReg_of_unread hk]
  split
  · exact agreeBut_next (t := s.halt .haltedRet)
  · refine agreeBut_loadWord fun x => ?_
    rw [State.setReg_setReg_comm s (beq_eq_false_iff_ne.mp hk)]
    exact agreeBut_next (t := (s.setReg spIdx (s.sp + 4)).setPc x)

/-- `popl` writes its destination before it reads `x[6]` again (D13), so the write that hides the difference comes first. -/
theorem agreeBut_execPopl {k : RegIdx} {v : Word} (hk : (k == spIdx) = false) (r : RegField) (s : State) :
    AgreeBut k (execPopl r s) (execPopl r (s.setReg k v)) := by
  refine agreeBut_useReg fun a _ => ?_
  rw [State.sp_setReg_of_unread hk]
  refine agreeBut_loadWord fun x => ?_
  obtain ⟨v', h⟩ := State.exists_setReg_setReg_swap s k a v x
  rw [h, State.sp_setReg_of_unread hk]
  exact agreeBut_setReg_advance

/-- `readr` reads the input port only. -/
theorem agreeBut_execReadr {k : RegIdx} {v : Word} (r : RegField) (s : State) :
    AgreeBut k (execReadr r s) (execReadr r (s.setReg k v)) := by
  refine agreeBut_useReg fun a _ => ?_
  rw [show (s.setReg k v).nextInput = s.nextInput from rfl]
  cases s.nextInput with
  | none => exact agreeBut_next (t := s)
  | some x => exact agreeBut_setReg_advance (s := s.consume)

/-- `pushl` reads its field's register, or `x[6]` alone. -/
theorem agreeBut_execPushl {k : RegIdx} {v : Word} {r : RegField} (hk : (r.toNat == k.val) = false) (hsp : (k == spIdx) = false)
    (s : State) : AgreeBut k (execPushl r s) (execPushl r (s.setReg k v)) := by
  refine agreeBut_useReg fun a ha => ?_
  rw [pushAddr_setReg_of_unread hsp, State.reg_setReg_ne s k a v (ne_of_unread hk ha)]
  exact agreeBut_storeWord fun m => agreeBut_setReg_advance

theorem exec_agrees_but_unread (i : Instr) (s : State) (k : RegIdx) (v : Word) (hk : readsReg i k = false) :
    AgreeBut k (exec i s) (exec i (s.setReg k v)) := by
  have hread (a : RegIdx) (ha : a ≠ k) : (s.setReg k v).reg a = s.reg a := State.reg_setReg_ne s k a v ha
  cases i with
  | subl r1 | addlImmReg r1 | shrl r1 =>
    rw [exec, exec]
    refine agreeBut_useReg fun a ha => ?_
    rw [hread a (ne_of_unread hk ha)]
    exact agreeBut_setReg_advance
  | movlImmReg r1 =>
    rw [exec, exec]
    exact agreeBut_useReg fun a _ => agreeBut_setReg_advance
  | addlRegReg r1 r2 | imull r1 r2 | cmpl r1 r2 =>
    obtain ⟨hk1, hk2⟩ := Bool.or_eq_false_iff.mp hk
    rw [exec, exec]
    refine agreeBut_useRegs fun a b ha hb => ?_
    rw [hread a (ne_of_unread hk1 ha), hread b (ne_of_unread hk2 hb)]
    exact agreeBut_setReg_advance
  | movlRegReg r1 r2 =>
    rw [exec, exec]
    refine agreeBut_useRegs fun a b ha _ => ?_
    rw [hread a (ne_of_unread hk ha)]
    exact agreeBut_setReg_advance
  | movlDerefReg r1 r2 imm =>
    rw [exec, exec]
    refine agreeBut_useRegs fun a b ha _ => ?_
    rw [effAddr, effAddr, hread a (ne_of_unread hk ha)]
    exact agreeBut_loadWord fun x => agreeBut_setReg_advance
  | movlRegDeref r1 r2 imm =>
    obtain ⟨hk1, hk2⟩ := Bool.or_eq_false_iff.mp hk
    rw [exec, exec]
    refine agreeBut_useRegs fun a b ha hb => ?_
    rw [effAddr, effAddr, hread a (ne_of_unread hk1 ha), hread b (ne_of_unread hk2 hb)]
    exact agreeBut_storeWord fun m => agreeBut_next (t := (s.setMem m).advance)
  | je imm | jl imm | jle imm | jge imm | jbe imm => exact agreeBut_branchIf_flags hk _ imm s
  | jmp imm => exact agreeBut_branchIf true imm
  | call imm =>
    rw [exec, exec, execCall, execCall, pushAddr_setReg_of_unread hk]
    refine agreeBut_storeWord fun m => ?_
    rw [State.setReg_setReg_comm _ (beq_eq_false_iff_ne.mp hk)]
    exact agreeBut_next (t := ((s.setMem m).setReg spIdx (pushAddr s)).jump imm)
  | ret => exact agreeBut_execRet hk s
  | pushl r1 =>
    obtain ⟨hk1, hsp⟩ := Bool.or_eq_false_iff.mp hk
    exact agreeBut_execPushl hk1 hsp s
  | popl r1 => exact agreeBut_execPopl hk r1 s
  | printr r1 =>
    rw [exec, exec]
    refine agreeBut_useReg fun a ha => ?_
    rw [hread a (ne_of_unread hk ha)]
    exact agreeBut_next (t := (s.emit (s.reg a)).advance)
  | readr r1 => exact agreeBut_execReadr r1 s

/-- Settles O34: the two answers agree but for the unread register (`exec_agrees_but_unread`). -/
theorem onlyTableRegistersRead : Obligations.OnlyTableRegistersRead := by
  unfold Obligations.OnlyTableRegistersRead
  exact fun i s t k v hk h => exec_agrees_but_unread i s k v hk t h

end Sys2Proof.Machine
end

section
/-! PROOFS. The comparison (43_compare.md): the four flags of `second - first` as statements about the operands, the branches that read them
(44_branches.md), and the seven words they make. -/

namespace Sys2Proof.Machine

open Sys2Proof

/-! ### The flags as comparisons (R105 to R107) -/

/-- The two readings of a word, signed and unsigned. -/
theorem toInt_cases (x : Word) :
    (x.toNat < 2147483648 ∧ x.toInt = x.toNat) ∨ (2147483648 ≤ x.toNat ∧ x.toInt = x.toNat - 4294967296) := by
  rw [BitVec.toInt_eq_toNat_cond]
  split
  · exact .inl ⟨by omega, rfl⟩
  · exact .inr ⟨by omega, rfl⟩

/-- ZF says that the operands are equal. -/
theorem truncDiff_eq_zero_iff (a b : Word) : truncDiff a b = 0 ↔ b = a := by
  rw [truncDiff_eq_sub, BitVec.sub_eq_iff_eq_add, zero_add]

/-- SF is the sign of the exact difference, turned over where that leaves 32 bits. -/
theorem msb_truncDiff_iff (a b : Word) :
    (truncDiff a b).msb = true ↔ 2147483647 < wideDiff a b ∨ (-2147483648 ≤ wideDiff a b ∧ wideDiff a b < 0) := by
  have ha := toInt_cases a
  have hb := toInt_cases b
  have hwide : wideDiff a b = b.toInt - a.toInt := rfl
  rw [BitVec.msb_eq_toInt, decide_eq_true_iff, truncDiff, BitVec.toInt_ofInt, Int.bmod_def]
  omega

/-- The flag word of four flags. -/
def flagWord (cf zf sf of : Bool) : Word := flagIf cf maskCF ||| flagIf zf maskZF ||| flagIf sf maskSF ||| flagIf of maskOF

/-- The flag word says each of its flags. -/
theorem flagWord_inj (cf zf sf of cf' zf' sf' of' : Bool) :
    flagWord cf zf sf of = flagWord cf' zf' sf' of' ↔ cf = cf' ∧ zf = zf' ∧ sf = sf' ∧ of = of' := by
  revert cf zf sf of cf' zf' sf' of'
  decide

/-- Which operands give which flag word. -/
theorem compareFlags_eq_flagWord_iff (a b : Word) (cf zf sf of : Bool) :
    compareFlags a b = flagWord cf zf sf of ↔
      (b.toNat < a.toNat ↔ cf = true) ∧ (b = a ↔ zf = true) ∧
        (2147483647 < wideDiff a b ∨ (-2147483648 ≤ wideDiff a b ∧ wideDiff a b < 0) ↔ sf = true) ∧
        (wideDiff a b < -2147483648 ∨ wideDiff a b > 2147483647 ↔ of = true) := by
  have decides (p : Prop) [Decidable p] (c : Bool) : decide p = c ↔ (p ↔ c = true) := by
    rw [Bool.eq_iff_iff, decide_eq_true_iff]
  rw [← msb_truncDiff_iff, ← truncDiff_eq_zero_iff a b]
  refine (flagWord_inj _ _ _ _ cf zf sf of).trans ?_
  exact and_congr (decides _ cf) (and_congr (decides _ zf) (and_congr Bool.eq_iff_iff (decides _ of)))

/-! ### The compare instruction -/

theorem getLsbD_compareFlags_unnamed (a b : Word) {k : Nat} (h0 : k ≠ 0) (h6 : k ≠ 6) (h7 : k ≠ 7) (h11 : k ≠ 11) :
    (compareFlags a b).getLsbD k = false := by
  have hmask : ∀ i < 32, i ≠ 0 → i ≠ 6 → i ≠ 7 → i ≠ 11 → (0xFFFFF73E : Word).getLsbD i = true := by decide
  by_cases hk : k < 32
  · have hbit : (compareFlags a b &&& 0xFFFFF73E).getLsbD k = false := by
      rw [compareFlags_and_unnamed]
      exact BitVec.getLsbD_zero
    rwa [BitVec.getLsbD_and, hmask k hk h0 h6 h7 h11, Bool.and_true] at hbit
  · exact BitVec.getLsbD_of_ge _ k (by omega)

/-- Settles O36: `x[16]` is the flag word of the two operands, and each clause is the law of one flag. -/
theorem cmplSetsFlagsOfDifference : Obligations.CmplSetsFlagsOfDifference := by
  unfold Obligations.CmplSetsFlagsOfDifference
  intro r1 r2 s
  refine ⟨?_, fun a b ha hb => ?_, fun h w hw => ?_⟩
  · exact (opField_encode _ _).trans (by decide : opNumber defaultOpMap .cmpl = 9)
  · obtain ⟨t, ht, hreg, hpc, hframe⟩ := exists_next_writing (exec_cmpl_of_names ha hb s)
    refine ⟨t, ht, ?_, ?_, ?_, ?_, fun k h0 h6 h7 h11 => ?_, hpc, hframe⟩
    · exact hreg ▸ flagCF_compareFlags _ _
    · refine (hreg ▸ flagZF_compareFlags _ _ : flagZF (t.reg 16) = _).trans ?_
      simp only [truncDiff_eq_zero_iff]
    · exact hreg ▸ (flagSF_compareFlags _ _).trans (congrArg _ (truncDiff_eq_sub _ _))
    · exact hreg ▸ flagOF_compareFlags _ _
    · exact hreg ▸ getLsbD_compareFlags_unnamed _ _ h0 h6 h7 h11
  · exact (exec_cmpl r1 r2 s).trans (useRegs_above h hw _)

/-- The seven words a comparison can give, and the operands that give each (R107). -/
theorem compareFlags_eq_pattern_iff (a b : Word) :
    (compareFlags a b = 0x40 ↔ a = b) ∧
      (compareFlags a b = 0x881 ↔ 2147483647 < b.toInt - a.toInt) ∧
      (compareFlags a b = 0x800 ↔ b.toInt - a.toInt < -2147483648) ∧
      (compareFlags a b = 0x00 ↔ a.toNat < b.toNat ∧ a.toInt < b.toInt ∧ b.toInt - a.toInt ≤ 2147483647) ∧
      (compareFlags a b = 0x81 ↔ b.toNat < a.toNat ∧ b.toInt < a.toInt ∧ -2147483648 ≤ b.toInt - a.toInt) ∧
      (compareFlags a b = 0x01 ↔ b.toNat < a.toNat ∧ a.toInt < b.toInt ∧ b.toInt - a.toInt ≤ 2147483647) ∧
      (compareFlags a b = 0x80 ↔ a.toNat < b.toNat ∧ b.toInt < a.toInt ∧ -2147483648 ≤ b.toInt - a.toInt) := by
  have ha := toInt_cases a
  have hb := toInt_cases b
  have flags := compareFlags_eq_flagWord_iff a b
  refine ⟨(flags false true false false).trans ?_, (flags true false true true).trans ?_, (flags false false false true).trans ?_,
    (flags false false false false).trans ?_, (flags true false true false).trans ?_, (flags true false false false).trans ?_,
    (flags false false true false).trans ?_⟩
  all_goals
    simp only [wideDiff, ← BitVec.toNat_inj, Bool.false_eq_true, iff_false, iff_true]
    omega

/-- Settles O39: each of the seven words is a flag word, and the conditions on its flags are linear in the operands. -/
theorem cmplGivesSevenPatterns : Obligations.CmplGivesSevenPatterns := by
  unfold Obligations.CmplGivesSevenPatterns
  intro r1 r2 s a b ha hb
  obtain ⟨t, ht, hreg, -⟩ := exists_next_writing (exec_cmpl_of_names ha hb s)
  replace hreg : t.reg 16 = compareFlags (s.reg a) (s.reg b) := hreg
  obtain ⟨h40, h881, h800, h00, h81, h01, h80⟩ := compareFlags_eq_pattern_iff (s.reg a) (s.reg b)
  have hsa := toInt_cases (s.reg a)
  have hsb := toInt_cases (s.reg b)
  refine ⟨t, ht, ?_⟩
  rw [hreg]
  refine ⟨?_, h40, h881, h800, fun hlow hhigh => ⟨h00.trans ?_, h81.trans ?_, h01.trans ?_, h80.trans ?_⟩⟩
  · simp only [List.mem_cons, List.not_mem_nil, or_false, h40, h881, h800, h00, h81, h01, h80, ← BitVec.toNat_inj]
    omega
  all_goals omega

/-! ### The branches after a comparison (R107, R113 to R118) -/

theorem condE_compareFlags_iff (a b : Word) : condE (compareFlags a b) = true ↔ b = a := by
  rw [condE, flagZF_compareFlags, decide_eq_true_iff, truncDiff_eq_zero_iff]

theorem condL_compareFlags_iff (a b : Word) : condL (compareFlags a b) = true ↔ b.toInt < a.toInt := by
  have hwide : wideDiff a b = b.toInt - a.toInt := rfl
  rw [condL, flagSF_compareFlags, flagOF_compareFlags, bne_iff_ne, ne_eq, Bool.eq_iff_iff, msb_truncDiff_iff, decide_eq_true_iff]
  omega

theorem condLE_compareFlags_iff (a b : Word) : condLE (compareFlags a b) = true ↔ b.toInt ≤ a.toInt := by
  refine Bool.or_eq_true_iff.trans ((or_congr (condL_compareFlags_iff a b) (condE_compareFlags_iff a b)).trans ?_)
  rw [← BitVec.toInt_inj, ← le_iff_lt_or_eq]

theorem condGE_compareFlags_iff (a b : Word) : condGE (compareFlags a b) = true ↔ a.toInt ≤ b.toInt := by
  rw [condGE_eq_not_condL, Bool.not_eq_true', ← Bool.not_eq_true, condL_compareFlags_iff, not_lt]

theorem condBE_compareFlags_iff (a b : Word) : condBE (compareFlags a b) = true ↔ b.toNat ≤ a.toNat := by
  refine Bool.or_eq_true_iff.trans ?_
  rw [flagCF_compareFlags, flagZF_compareFlags, decide_eq_true_iff, decide_eq_true_iff, truncDiff_eq_zero_iff, ← BitVec.toNat_inj,
    ← le_iff_lt_or_eq]

/-- A branch on a condition that decides `P`. -/
theorem branchIf_eq_ite {c : Bool} {P : Prop} [Decidable P] (h : c = true ↔ P) (imm : Imm16) (s : State) :
    branchIf c imm s = .next (if P then s.jump imm else s.advance) := by
  rw [branchIf, if_congr h rfl rfl]

/-- Settles O38: each condition, read from the flag word of the operands, decides its comparison. -/
theorem branchesAfterCmplCompare : Obligations.BranchesAfterCmplCompare := by
  unfold Obligations.BranchesAfterCmplCompare
  intro r1 r2 imm s a b ha hb
  obtain ⟨t, ht, hreg, -⟩ := exists_next_writing (exec_cmpl_of_names ha hb s)
  replace hreg : t.flags = compareFlags (s.reg a) (s.reg b) := hreg
  refine ⟨t, ht, ?_, ?_, ?_, ?_, ?_⟩
  · exact branchIf_eq_ite (hreg ▸ condE_compareFlags_iff _ _) imm t
  · exact branchIf_eq_ite (hreg ▸ condL_compareFlags_iff _ _) imm t
  · exact branchIf_eq_ite (hreg ▸ condLE_compareFlags_iff _ _) imm t
  · exact branchIf_eq_ite (hreg ▸ condGE_compareFlags_iff _ _) imm t
  · exact branchIf_eq_ite (hreg ▸ condBE_compareFlags_iff _ _) imm t

end Sys2Proof.Machine
end

section
/-! PROOFS. Words in registers and memory: the low word of a product (41_arithmetic.md), the weights of a word's bytes, and a load after a
store (20_memory.md). -/

namespace Sys2Proof.Machine

open Sys2Proof

/-! ### The product (R88) -/

/-- The product of two words is the word of their exact signed product. -/
theorem mul_eq_ofInt (x y : Word) : x * y = BitVec.ofInt 32 (x.toInt * y.toInt) := by
  rw [BitVec.ofInt_mul, BitVec.ofInt_toInt, BitVec.ofInt_toInt]

/-- The product of two words is the word of their exact unsigned product. -/
theorem mul_eq_ofNat (x y : Word) : x * y = BitVec.ofNat 32 (x.toNat * y.toNat) :=
  BitVec.mul_def

theorem exec_imull_of_names {r1 r2 : RegField} {a b : RegIdx} (ha : Names r1 a) (hb : Names r2 b) (s : State) :
    exec (.imull r1 r2) s = .next (s.setReg b (s.reg b * s.reg a)).advance :=
  (exec_imull r1 r2 s).trans (useRegs_ok r1 r2 a b ha hb s _)

/-- Settles O24: the wrapped product is the word of the exact one by either reading (`mul_eq_ofInt`, `mul_eq_ofNat`). -/
theorem imullKeepsLowProduct : Obligations.ImullKeepsLowProduct := by
  unfold Obligations.ImullKeepsLowProduct
  intro r1 r2 s
  refine ⟨?_, fun a b ha hb => ?_, fun h w hw => ?_⟩
  · exact (opField_encode _ _).trans (by decide : opNumber defaultOpMap .imull = 3)
  · obtain ⟨t, ht, hreg, hpc, hframe⟩ := exists_next_writing (exec_imull_of_names ha hb s)
    exact ⟨t, ht, hreg.trans (mul_eq_ofInt _ _), hreg.trans (mul_eq_ofNat _ _), hpc, hframe⟩
  · exact (exec_imull r1 r2 s).trans (useRegs_above h hw _)

/-! ### The bytes of a word (R33, R34) -/

theorem toNat_append_byte {n : Nat} (x : BitVec n) (b : Byte) : (x ++ b).toNat = 256 * x.toNat + b.toNat := by
  rw [BitVec.toNat_append, ← Nat.shiftLeft_add_eq_or_of_lt b.isLt, Nat.shiftLeft_eq, Nat.mul_comm]

/-- Four bytes side by side, the first the most significant. -/
theorem toNat_append_bytes (b3 b2 b1 b0 : Byte) :
    (b3 ++ b2 ++ b1 ++ b0).toNat = 16777216 * b3.toNat + 65536 * b2.toNat + 256 * b1.toNat + b0.toNat := by
  simp only [toNat_append_byte]
  omega

/-- Byte `j` of a word, counted from the least significant. -/
theorem toNat_extractByte (v : Word) (j : Nat) : (v.extractLsb' (8 * j) 8).toNat = v.toNat / 256 ^ j % 256 := by
  rw [BitVec.extractLsb'_toNat, Nat.shiftRight_eq_div_pow, Nat.pow_mul]

/-- Settles O30: the word is the four bytes side by side in one order or the other. -/
theorem wordBytesFollowByteOrder : Obligations.WordBytesFollowByteOrder := by
  unfold Obligations.WordBytesFollowByteOrder
  refine ⟨fun m a => ⟨?_, toNat_append_bytes _ _ _ _⟩, fun v j _ => ⟨toNat_extractByte v j, toNat_extractByte v (3 - j)⟩⟩
  refine (toNat_append_bytes _ _ _ _).trans ?_
  omega

/-! ### A load after a store (R41) -/

/-- Where the four bytes are those of a word, the word reads back. -/
theorem Memory.readWord_of_bytes {m : Memory} {e : Endian} {a : Nat} {v : Word} (h : ∀ j < 4, m.readByte (a + j) = byteOfWord e v j) :
    m.readWord e a = v := by
  have h0 : m.readByte a = byteOfWord e v 0 := h 0 (by decide)
  rw [Memory.readWord, h0, h 1 (by decide), h 2 (by decide), h 3 (by decide), wordOfBytes_byteOfWord]

/-- A stored word reads back, in either byte order and at any alignment. -/
theorem Memory.readWord_writeWord (m : Memory) (e : Endian) (a : Nat) (v : Word) : (m.writeWord e a v).readWord e a = v :=
  Memory.readWord_of_bytes fun _ hj => Memory.readByte_writeWord_offset m e a v hj

/-- Settles O31: the store leaves the base register, so the load goes to the same address and reads the stored word back. -/
theorem storeThenLoadReturnsValue : Obligations.StoreThenLoadReturnsValue := by
  unfold Obligations.StoreThenLoadReturnsValue
  intro r1 r2 r3 imm s a b c ha hb hc hlegal
  have hstore := (exec_movlRegDeref_of_names ha hb imm s).trans (storeWord_legal _ _ s _ hlegal)
  refine ⟨_, _, hstore, (exec_movlDerefReg_of_names hb hc imm _).trans (loadWord_legal _ _ _ hlegal), ?_⟩
  exact (State.reg_setReg_same _ c _).trans (Memory.readWord_writeWord s.mem s.dataEndian _ (s.reg a))

end Sys2Proof.Machine
end

section
/-! PROOFS. Call, return, push and pop (45_call_return_stack.md): a store below `x[6]` or a load at `x[6]`, and what pushes and pops do
together. -/

namespace Sys2Proof.Machine

open Sys2Proof

/-! ### The frames -/

/-- One word stored, `x[6]` and `pc` written: the frame of a push. -/
theorem storesOnly_push (s : State) (addr : Nat) (v sp pc : Word) :
    StoresOnly addr [6] s (((s.setMem (s.mem.writeWord s.dataEndian addr v)).setReg 6 sp).setPc pc) := by
  refine ⟨fun k hk => ?_, keepsMemoryBut_of_writeWord rfl, ⟨rfl, rfl, rfl, rfl⟩, ⟨rfl, rfl⟩, ⟨rfl, rfl, rfl, rfl, rfl⟩⟩
  exact State.reg_setReg_ne _ 6 k sp (List.ne_of_not_mem_cons hk)

/-- One register and `pc` written: the frame of a return. -/
theorem writesOnly_setReg_setPc (s : State) (a : RegIdx) (v pc : Word) : WritesOnly [a] s ((s.setReg a v).setPc pc) :=
  writesOnly_setReg_advance s a v

/-- Two registers and `pc` written: the frame of a pop. -/
theorem writesOnly_pop (s : State) (a b : RegIdx) (v w pc : Word) : WritesOnly [a, b] s (((s.setReg a v).setReg b w).setPc pc) := by
  refine ⟨fun k hk => ?_, fun _ => rfl, ⟨rfl, rfl, rfl, rfl⟩, ⟨rfl, rfl⟩, ⟨rfl, rfl, rfl, rfl, rfl⟩⟩
  obtain ⟨hka, hkb⟩ : k ≠ a ∧ k ≠ b := by simpa using hk
  exact (State.reg_setReg_ne _ b k w hkb).trans (State.reg_setReg_ne s a k v hka)

/-! ### `call` and `ret` -/

theorem exec_call_eq (imm : Imm16) (s : State) :
    exec (.call imm) s = storeWord (pushAddr s) (s.pc + 4) s fun t => .next ((t.setReg 6 (pushAddr s)).jump imm) :=
  rfl

/-- Settles O46: the two answers of `storeWord` at the push address, on either side of 1020. -/
theorem callPushesReturnAddress : Obligations.CallPushesReturnAddress := by
  unfold Obligations.CallPushesReturnAddress
  intro imm s
  refine ⟨?_, rfl, fun hlegal => ?_, fun hillegal => ?_⟩
  · exact (opField_encode _ _).trans (by decide : opNumber defaultOpMap .call = 16)
  · refine ⟨_, (exec_call_eq imm s).trans (storeWord_legal _ _ s _ hlegal), fun j hj => ?_, ?_, ?_, ?_⟩
    · exact Memory.readByte_writeWord_offset s.mem s.dataEndian _ (s.pc + 4) hj
    · exact State.reg_setReg_same _ 6 (pushAddr s)
    · exact State.jump_pc_eq_ofInt _ imm
    · exact storesOnly_push s _ (s.pc + 4) (pushAddr s) _
  · exact (exec_call_eq imm s).trans (storeWord_illegal _ _ s _ hillegal)

theorem exec_ret_of_sp_ne {s : State} (h : s.reg 6 ≠ 1024) :
    exec .ret s = loadWord (s.reg 6) s fun t => .next ((s.setReg 6 (s.reg 6 + 4)).setPc t) :=
  if_neg h

/-- Settles O47: past the comparison with `INIT_SP`, the two answers of `loadWord` at `x[6]`. -/
theorem retPopsReturnAddress : Obligations.RetPopsReturnAddress := by
  unfold Obligations.RetPopsReturnAddress
  intro s hsp
  refine ⟨?_, fun hlegal => ?_, fun hillegal => ?_⟩
  · exact (opField_encode _ _).trans (by decide : opNumber defaultOpMap .ret = 17)
  · refine ⟨_, (exec_ret_of_sp_ne hsp).trans (loadWord_legal _ s _ hlegal), rfl, ?_, ?_⟩
    · exact State.reg_setReg_same s 6 _
    · exact writesOnly_setReg_setPc s 6 _ _
  · exact (exec_ret_of_sp_ne hsp).trans (loadWord_illegal _ s _ hillegal)

/-- Settles O51: `ret` loads from the address the call stored to, where the four bytes are those of the call's `pc + 4`. -/
theorem callThenRetResumesAfterCall : Obligations.CallThenRetResumesAfterCall := by
  unfold Obligations.CallThenRetResumesAfterCall
  intro imm s hlegal
  obtain ⟨-, haddr, hcall, -⟩ := callPushesReturnAddress imm s
  obtain ⟨t, ht, hbytes, hsp, -, -⟩ := hcall hlegal
  refine ⟨t, ht, fun u husp hendian hkept => ?_⟩
  rw [hsp] at husp hkept
  have hne : u.reg 6 ≠ 1024 := by
    rw [husp]
    rintro h
    rw [h] at hlegal
    exact absurd hlegal (by decide)
  obtain ⟨-, hret, -⟩ := retPopsReturnAddress u hne
  obtain ⟨v, hv, hpc, hv6, -⟩ := hret (husp ▸ hlegal)
  refine ⟨v, hv, ?_, ?_⟩
  · rw [hpc, husp, hendian]
    exact Memory.readWord_of_bytes fun j hj => (hkept j hj).trans (hbytes j hj)
  · rw [hv6, husp, haddr, BitVec.sub_add_cancel]

/-! ### `pushl` and `popl` -/

theorem exec_pushl_of_names {r1 : RegField} {a : RegIdx} (ha : Names r1 a) (s : State) :
    exec (.pushl r1) s = storeWord (pushAddr s) (if a = 6 then s.reg 6 - 4 else s.reg a) s fun t =>
      .next (t.setReg 6 (pushAddr s)).advance :=
  (exec_pushl r1 s).trans (useReg_ok r1 a ha s _)

theorem exec_popl_of_names {r1 : RegField} {a : RegIdx} (ha : Names r1 a) (s : State) :
    exec (.popl r1) s = loadWord (s.reg 6) s fun v =>
      .next ((s.setReg a v).setReg 6 ((s.setReg a v).reg 6 + 4)).advance :=
  (exec_popl r1 s).trans (useReg_ok r1 a ha s _)

/-- Settles O49: the two answers of `storeWord` at the push address, on either side of 1020. -/
theorem pushlStoresBelowStackPointer : Obligations.PushlStoresBelowStackPointer := by
  unfold Obligations.PushlStoresBelowStackPointer
  intro r1 s
  refine ⟨?_, rfl, fun a ha => ⟨fun hlegal => ?_, fun hillegal => ?_⟩, fun h w hw => ?_⟩
  · exact (opField_encode _ _).trans (by decide : opNumber defaultOpMap .pushl = 18)
  · refine ⟨_, (exec_pushl_of_names ha s).trans (storeWord_legal _ _ s _ hlegal), fun j hj => ?_, ?_, rfl, ?_⟩
    · exact Memory.readByte_writeWord_offset s.mem s.dataEndian _ _ hj
    · exact State.reg_setReg_same _ 6 (pushAddr s)
    · exact storesOnly_push s _ _ (pushAddr s) _
  · exact (exec_pushl_of_names ha s).trans (storeWord_illegal _ _ s _ hillegal)
  · exact (exec_pushl r1 s).trans (useReg_above h hw _)

/-- Settles O50: the two answers of `loadWord` at `x[6]`; the increment reads `x[6]` after the write of the destination. -/
theorem poplLoadsThenIncrements : Obligations.PoplLoadsThenIncrements := by
  unfold Obligations.PoplLoadsThenIncrements
  intro r1 s
  refine ⟨?_, fun a ha => ⟨fun hlegal => ?_, fun hillegal => ?_⟩, fun h w hw => ?_⟩
  · exact (opField_encode _ _).trans (by decide : opNumber defaultOpMap .popl = 19)
  · refine ⟨_, (exec_popl_of_names ha s).trans (loadWord_legal _ s _ hlegal), fun hne => ⟨?_, ?_⟩, ?_, rfl, ?_⟩
    · exact (State.reg_setReg_ne _ 6 a _ hne).trans (State.reg_setReg_same s a _)
    · exact (State.reg_setReg_same _ 6 _).trans (congrArg (· + 4) (State.reg_setReg_ne s a 6 _ hne.symm))
    · rintro rfl
      exact (State.reg_setReg_same _ 6 _).trans (congrArg (· + 4) (State.reg_setReg_same s 6 _))
    · exact writesOnly_pop s a 6 _ _ _
  · exact (exec_popl_of_names ha s).trans (loadWord_illegal _ s _ hillegal)
  · exact (exec_popl r1 s).trans (useReg_above h hw _)

end Sys2Proof.Machine
end

section
/-! PROOFS. N pushes and N pops (45_call_return_stack.md section 3): the stack as a list of words, lowest address first; a push puts a word
in front of the list, a pop takes the first. -/

namespace Sys2Proof.Machine

open Sys2Proof

/-! ### The stack as a list of words -/

/-- The words of the list stand one after the other from an address. -/
def WordsAt (m : Memory) (e : Endian) : Nat → List Word → Prop
  | _, [] => True
  | a, w :: ws => m.readWord e a = w ∧ WordsAt m e (a + 4) ws

/-- The words of the list stand from `x[6]`. -/
def State.StackHolds (s : State) (ws : List Word) : Prop := WordsAt s.mem s.dataEndian (s.reg 6).toNat ws

/-- Words stand where they stood when no byte from their address on has changed. -/
theorem WordsAt.of_agree {m n : Memory} {e : Endian} {a : Nat} {ws : List Word} (h : WordsAt m e a ws)
    (hagree : ∀ b, a ≤ b → n.readByte b = m.readByte b) : WordsAt n e a ws := by
  induction ws generalizing a with
  | nil => trivial
  | cons w ws ih =>
    obtain ⟨hw, hws⟩ := h
    refine ⟨?_, ih hws fun b hb => hagree b (by omega)⟩
    rw [← hw, Memory.readWord, Memory.readWord, hagree a (by omega), hagree (a + 1) (by omega), hagree (a + 2) (by omega),
      hagree (a + 3) (by omega)]

/-! ### One push and one pop -/

section Single

variable {r : RegField} {a : RegIdx} (ha : Names r a) (hne : a ≠ 6) {s : State} {ws : List Word}
include ha hne

/-- A push of another register than `x[6]` puts its value in front. -/
theorem exec_pushl_stackHolds (hlow : 4 ≤ (s.reg 6).toNat) (hhigh : (s.reg 6).toNat ≤ 1024) (h : s.StackHolds ws) :
    ∃ t, exec (.pushl r) s = .next t ∧ (t.reg 6).toNat + 4 = (s.reg 6).toNat ∧ KeepsRegsBut [6] s t ∧
      t.StackHolds (s.reg a :: ws) := by
  obtain ⟨-, haddr, hpush, -⟩ := pushlStoresBelowStackPointer r s
  have hbelow : (pushAddr s).toNat + 4 = (s.reg 6).toNat := by
    rw [haddr]
    bv_omega
  obtain ⟨hlegal, -⟩ := hpush a ha
  obtain ⟨t, ht, hbytes, hsp, -, hregs, hmem, -, -, -, -, -, -, hendian⟩ := hlegal (by omega)
  rw [if_neg hne] at hbytes
  refine ⟨t, ht, hsp ▸ hbelow, hregs, ?_, ?_⟩
  · rw [hsp, hendian]
    exact Memory.readWord_of_bytes hbytes
  · rw [hsp, hbelow, hendian]
    exact WordsAt.of_agree h fun b hb => hmem b (.inr (by omega))

/-- A pop into another register than `x[6]` takes the first word. -/
theorem exec_popl_stackHolds {w : Word} (hhigh : (s.reg 6).toNat ≤ 1020) (h : s.StackHolds (w :: ws)) :
    ∃ t, exec (.popl r) s = .next t ∧ (t.reg 6).toNat = (s.reg 6).toNat + 4 ∧ KeepsRegsBut [a, 6] s t ∧ t.reg a = w ∧
      t.StackHolds ws := by
  obtain ⟨-, hpop, -⟩ := poplLoadsThenIncrements r s
  obtain ⟨hlegal, -⟩ := hpop a ha
  obtain ⟨t, ht, hother, -, -, hregs, hmem, -, -, -, -, -, -, hendian⟩ := hlegal hhigh
  obtain ⟨hval, hsp⟩ := hother hne
  obtain ⟨hw, hws⟩ := h
  have habove : (t.reg 6).toNat = (s.reg 6).toNat + 4 := by
    rw [hsp]
    bv_omega
  refine ⟨t, ht, habove, hregs, hval.trans hw, ?_⟩
  rw [State.StackHolds, habove, hendian]
  exact WordsAt.of_agree hws fun b _ => hmem b

end Single

/-! ### Lists of them -/

/-- The register a field names. -/
def regNamed (r : RegField) : RegIdx := ⟨r.toNat % 17, Nat.mod_lt _ (by decide)⟩

theorem names_regNamed {r : RegField} (h : r.toNat < 17) : Names r (regNamed r) := (Nat.mod_eq_of_lt h).symm

theorem regNamed_eq_of_names {r : RegField} {a : RegIdx} (h : Names r a) : regNamed r = a := by
  have hlt : r.toNat < 17 := h ▸ a.isLt
  exact Fin.ext ((names_regNamed hlt).symm.trans h)

/-- A field that may be pushed or popped here: it names a register, and not `x[6]`. -/
def Poppable (r : RegField) : Prop := r.toNat < 17 ∧ r.toNat ≠ 6

theorem Poppable.names {r : RegField} (h : Poppable r) : Names r (regNamed r) := by
  obtain ⟨hlt, -⟩ := h
  exact names_regNamed hlt

theorem Poppable.regNamed_ne {r : RegField} (h : Poppable r) : regNamed r ≠ 6 := by
  intro he
  have hnames := h.names
  obtain ⟨-, hne⟩ := h
  exact hne (hnames.trans (congrArg Fin.val he))

/-- Two fields that name the same register are the same field. -/
theorem Poppable.eq_of_regNamed_eq {r d : RegField} (hr : Poppable r) (hd : Poppable d) (h : regNamed r = regNamed d) : r = d := by
  apply BitVec.eq_of_toNat_eq
  rw [hr.names, h, ← hd.names]

theorem execAll_cons_of_next {i : Instr} {s t : State} (h : exec i s = .next t) (rest : List Instr) :
    execAll (i :: rest) s = execAll rest t := by
  rw [execAll, h]

/-- Pushes put the values of their registers in front, the last one first. -/
theorem execAll_pushl (rs : List RegField) (s : State) (ws : List Word) (hrs : ∀ r ∈ rs, Poppable r)
    (hlow : 4 * rs.length ≤ (s.reg 6).toNat) (hhigh : (s.reg 6).toNat ≤ 1024) (h : s.StackHolds ws) :
    ∃ t, (∀ rest, execAll (rs.map Instr.pushl ++ rest) s = execAll rest t) ∧ (t.reg 6).toNat + 4 * rs.length = (s.reg 6).toNat ∧
      t.StackHolds ((rs.reverse.map fun r => s.reg (regNamed r)) ++ ws) := by
  induction rs generalizing s ws with
  | nil => exact ⟨s, fun _ => rfl, rfl, h⟩
  | cons r rs ih =>
    rw [List.length_cons] at hlow
    obtain ⟨hr, hrs⟩ := List.forall_mem_cons.mp hrs
    obtain ⟨u, hu, husp, hukept, huholds⟩ := exec_pushl_stackHolds hr.names hr.regNamed_ne (by omega) hhigh h
    obtain ⟨t, ht, htsp, htholds⟩ := ih u _ hrs (by omega) (by omega) huholds
    refine ⟨t, fun rest => (execAll_cons_of_next hu _).trans (ht rest), ?_, ?_⟩
    · rw [List.length_cons]
      omega
    · have hvalues : (rs.reverse.map fun r => u.reg (regNamed r)) = rs.reverse.map fun r => s.reg (regNamed r) :=
        List.map_congr_left fun d hd => hukept _ (by simpa using (hrs d (List.mem_reverse.mp hd)).regNamed_ne)
      rw [hvalues] at htholds
      simpa using htholds

/-- Pops into distinct registers deliver the words in order. -/
theorem execAll_popl (ds : List RegField) (s : State) (ws : List Word) (hds : ∀ d ∈ ds, Poppable d) (hnodup : ds.Nodup)
    (hlength : ds.length = ws.length) (hhigh : (s.reg 6).toNat + 4 * ds.length ≤ 1024) (h : s.StackHolds ws) :
    ∃ t, execAll (ds.map Instr.popl) s = .next t ∧ (t.reg 6).toNat = (s.reg 6).toNat + 4 * ds.length ∧
      KeepsRegsBut (6 :: ds.map regNamed) s t ∧ (ds.map fun d => t.reg (regNamed d)) = ws := by
  induction ds generalizing s ws with
  | nil => exact ⟨s, rfl, rfl, fun _ _ => rfl, (List.length_eq_zero_iff.mp hlength.symm).symm⟩
  | cons d ds ih =>
    obtain ⟨w, ws, rfl⟩ := List.exists_cons_of_length_eq_add_one hlength.symm
    rw [List.length_cons] at hhigh
    obtain ⟨hd, hds⟩ := List.forall_mem_cons.mp hds
    obtain ⟨hnew, hnodup⟩ := List.nodup_cons.mp hnodup
    obtain ⟨u, hu, husp, hukept, hval, huholds⟩ := exec_popl_stackHolds hd.names hd.regNamed_ne (by omega) h
    obtain ⟨t, ht, htsp, htkept, hvalues⟩ := ih u ws hds hnodup (Nat.succ.inj hlength) (by omega) huholds
    have hlater : regNamed d ∉ 6 :: ds.map regNamed := by
      rw [List.mem_cons, not_or]
      refine ⟨hd.regNamed_ne, fun hmem => ?_⟩
      obtain ⟨d', hd', he⟩ := List.mem_map.mp hmem
      exact hnew (hd.eq_of_regNamed_eq (hds d' hd') he.symm ▸ hd')
    refine ⟨t, (execAll_cons_of_next hu _).trans ht, ?_, fun k hk => ?_, ?_⟩
    · rw [List.length_cons]
      omega
    · simp only [List.map_cons, List.mem_cons, not_or] at hk
      obtain ⟨hk6, hkd, hkds⟩ := hk
      rw [htkept k (by simp [hk6, hkds]), hukept k (by simp [hk6, hkd])]
    · rw [List.map_cons, htkept _ hlater, hval, hvalues]

/-- Settles O52: the pushes put the values on the stack, the pops deliver the list in its order, the reverse of the pushes. -/
theorem pushesThenPopsReverse : Obligations.PushesThenPopsReverse := by
  unfold Obligations.PushesThenPopsReverse
  intro rs ds s hlength hrs hds hnodup hlow hhigh
  obtain ⟨u, hu, husp, huholds⟩ := execAll_pushl rs s [] hrs hlow hhigh trivial
  rw [List.append_nil] at huholds
  obtain ⟨t, ht, htsp, -, hvalues⟩ := execAll_popl ds u _ hds hnodup (by simpa using hlength) (by omega) huholds
  refine ⟨t, (hu _).trans ht, BitVec.eq_of_toNat_eq (by omega), fun j d r a b hd hr ha hb => ?_⟩
  have hj := congrArg (·[j]?) hvalues
  simp only [List.getElem?_map, hd, hr, Option.map_some, Option.some.injEq] at hj
  rwa [regNamed_eq_of_names ha, regNamed_eq_of_names hb] at hj

end Sys2Proof.Machine
end

section
/-! PROOFS. The input port (46_io.md) and a run over `IN` (70_reset_and_hazards.md section 5): a `readr` takes the value at `in_pos` or
waits, the host answers a wait and nothing else, and a run hands over the values of `IN` in order. -/

namespace Sys2Proof.Machine

open Sys2Proof

/-! ### The streams (R23, R24) -/

/-- Settles O56: of the cases of `exec_next_cases`, only the last moves a stream. -/
theorem streamsMoveByConsoleOnly : Obligations.StreamsMoveByConsoleOnly := by
  unfold Obligations.StreamsMoveByConsoleOnly
  intro i s t h
  obtain ⟨w, -, -, rfl⟩ | ⟨-, ⟨addr, -, rfl⟩ | ⟨-, -, rfl⟩ | ⟨-, -, -, hout, hin⟩⟩ := exec_next_cases i s t h
  · exact ⟨.inl rfl, .inl rfl⟩
  · exact ⟨.inl rfl, .inl rfl⟩
  · exact ⟨.inl rfl, .inl rfl⟩
  · exact ⟨hout, hin⟩

/-! ### `readr` (R139, R140) -/

section Readr

variable {r : RegField} {a : RegIdx} (ha : Names r a) {s : State}
include ha

theorem exec_readr_of_available {v : Word} (h : s.nextInput = some v) :
    exec (.readr r) s = .next (s.setReg a v).consume.advance := by
  rw [exec_readr, execReadr, useReg_ok r a ha, h]

theorem exec_readr_of_exhausted (h : s.nextInput = none) : exec (.readr r) s = .next s := by
  rw [exec_readr, execReadr, useReg_ok r a ha, h, State.waiting]

end Readr

theorem State.nextInput_eq_none_iff (s : State) : s.nextInput = none ↔ s.input.length ≤ s.inPos :=
  List.getElem?_eq_none_iff

/-- A value delivered where all were taken is the next one. -/
theorem State.nextInput_deliver {s : State} (h : s.inPos = s.input.length) (v : Word) : (s.deliver v).nextInput = some v := by
  rw [State.nextInput, State.deliver_input, State.deliver_inPos, h, List.getElem?_concat_length]

/-- The answer is the next state of a `readr` that took `v` into `x[a]`. -/
def TakesInput (s : State) (a : RegIdx) (v : Word) (r : StepResult) : Prop :=
  ∃ t, r = .next t ∧ t.reg a = v ∧ t.inPos = s.inPos + 1 ∧ t.pc = s.pc + 4

theorem takesInput_readr {r : RegField} {a : RegIdx} (ha : Names r a) {s : State} {v : Word} (h : s.nextInput = some v) :
    TakesInput s a v (exec (.readr r) s) :=
  ⟨_, exec_readr_of_available ha h, State.reg_setReg_same s a v, rfl, rfl⟩

/-- Settles O54: the value at `in_pos` is the next one, and one register, `in_pos` and `pc` are written. -/
theorem readrTakesNextInput : Obligations.ReadrTakesNextInput := by
  unfold Obligations.ReadrTakesNextInput
  intro r1 s
  refine ⟨?_, fun a v ha hv => ?_, fun h w hw => ?_⟩
  · exact (opField_encode _ _).trans (by decide : opNumber defaultOpMap .readr = 21)
  · refine ⟨_, exec_readr_of_available ha hv, State.reg_setReg_same s a v, rfl, rfl, rfl, fun k hk => ?_, fun _ => rfl,
      ⟨rfl, rfl, rfl, rfl⟩, ⟨rfl, rfl, rfl, rfl, rfl⟩⟩
    exact State.reg_setReg_ne s a k v (List.ne_of_not_mem_cons hk)
  · exact (exec_readr r1 s).trans (useReg_above h hw _)

/-! ### The host's answer (R177) -/

/-- Settles O57: the answer is a move exactly in a state that waits (`State.awaitsInput_iff`). -/
theorem hostAnswersOnlyWaitingReadr : Obligations.HostAnswersOnlyWaitingReadr := by
  unfold Obligations.HostAnswersOnlyWaitingReadr
  intro s u v
  refine (State.supplyInput_eq_some_iff s u v).trans (and_congr_left fun _ => ?_)
  rw [State.awaitsInput_iff, State.nextInput_eq_none_iff]
  constructor
  · rintro ⟨⟨w, r, a, hf, hd, ha⟩, hpos⟩
    exact ⟨w, r, a, hf, hd, ha, hpos⟩
  · rintro ⟨w, r, a, hf, hd, ha, hpos⟩
    exact ⟨⟨w, r, a, hf, hd, ha⟩, hpos⟩

/-- A delivered value leaves the fetch as it is. -/
theorem Fetches.deliver {s : State} {w : Word} (h : Fetches s w) (v : Word) : Fetches (s.deliver v) w := h

section FetchedReadr

variable {s : State} {w : Word} {r : RegField} {a : RegIdx} (hf : Fetches s w) (hd : decode s.opMap w = .instr (.readr r))
  (ha : Names r a)
include hf hd ha

/-- A fetched `readr` waits exactly where no value stands at `in_pos`. -/
theorem awaitsInput_of_fetches : s.awaitsInput = true ↔ s.nextInput = none := by
  rw [State.awaitsInput_iff]
  exact ⟨And.right, fun h => ⟨⟨w, r, a, hf, hd, ha⟩, h⟩⟩

/-- The host's answer lets a fetched `readr` complete. -/
theorem takesInput_step_deliver (hpos : s.inPos = s.input.length) (v : Word) : TakesInput s a v (step (s.deliver v)) := by
  rw [(hf.deliver v).step_eq_exec hd]
  exact takesInput_readr ha (State.nextInput_deliver hpos v)

end FetchedReadr

/-- Settles O55: without a value `readr` answers the same state, and with one more value at the port it takes that. -/
theorem readrWaitsForInput : Obligations.ReadrWaitsForInput := by
  unfold Obligations.ReadrWaitsForInput
  intro r1 s a ha hpos
  have hnone : s.nextInput = none := (State.nextInput_eq_none_iff s).mpr hpos.ge
  refine ⟨exec_readr_of_exhausted ha hnone, fun v => ?_, fun w v hf hd => ⟨?_, ?_⟩⟩
  · exact takesInput_readr ha (State.nextInput_deliver hpos v)
  · rw [hf.step_eq_exec hd]
    exact exec_readr_of_exhausted ha hnone
  · have hawaits := (awaitsInput_of_fetches hf hd ha).mpr hnone
    exact ⟨s.deliver v, (takesInput_step_deliver hf hd ha hpos v).imp fun t ht => ⟨State.supplyInput_awaits s v hawaits, ht⟩⟩

/-! ### A run over `IN` (R4, R178) -/

/-- Where nothing is asked for, the console does nothing. -/
theorem State.feed_idle (q : InputSeq) (s : State) (h : s.awaitsInput = false) : s.feed q = s := by
  obtain ⟨he, -⟩ | ⟨v, hawaits, -, -⟩ := State.feed_cases s q
  · exact he
  · rw [h] at hawaits
    cases hawaits

/-- Where `IN` is exhausted, the console does nothing. -/
theorem State.feed_exhausted (q : InputSeq) (s : State) (h : q.get? s.inPos = none) : s.feed q = s := by
  obtain ⟨he, -⟩ | ⟨v, -, hq, -⟩ := State.feed_cases s q
  · exact he
  · rw [h] at hq
    cases hq

/-- A wait is answered with the value of `IN` at `in_pos`. -/
theorem State.feed_awaits (q : InputSeq) (s : State) {v : Word} (h : s.awaitsInput = true) (hq : q.get? s.inPos = some v) :
    s.feed q = s.deliver v := by
  rw [State.feed, hq]
  exact congrArg (Option.getD · s) (State.supplyInput_awaits s v h)

namespace State.InputFrom

variable {s : State} {q : InputSeq} (h : s.InputFrom q)
include h

/-- The value at the port is the value of `IN`. -/
theorem get?_eq {v : Word} (hv : s.nextInput = some v) : q.get? s.inPos = some v := by
  obtain ⟨-, hfirst⟩ := h
  exact hfirst _ v hv

/-- Where no value stands at `in_pos`, all that stand at the port were taken. -/
theorem inPos_eq (hnone : s.nextInput = none) : s.inPos = s.input.length :=
  le_antisymm h.1 ((State.nextInput_eq_none_iff s).mp hnone)

/-- The value of `IN` at `in_pos` prolongs the values at the port. -/
theorem deliver {v : Word} (hnone : s.nextInput = none) (hq : q.get? s.inPos = some v) : (s.deliver v).InputFrom q := by
  have hpos := h.inPos_eq hnone
  obtain ⟨-, hfirst⟩ := h
  refine ⟨?_, fun k x hx => ?_⟩
  · rw [State.deliver_inPos, State.deliver_input, List.length_append, hpos]
    exact Nat.le_add_right _ _
  · rw [State.deliver_input, List.getElem?_append] at hx
    split at hx
    · exact hfirst k x hx
    · next hk =>
      obtain ⟨hlt, rfl⟩ := List.getElem?_eq_some_iff.mp hx
      have hlast : k = s.inPos := by
        rw [List.length_singleton] at hlt
        omega
      rw [List.getElem_singleton, hlast, hq]

theorem feed : (s.feed q).InputFrom q := by
  obtain ⟨he, -⟩ | ⟨v, hawaits, hq, he⟩ := State.feed_cases s q <;> rw [he]
  · exact h
  · obtain ⟨-, hnone⟩ := (State.awaitsInput_iff s).mp hawaits
    exact h.deliver hnone hq

theorem of_step {t : State} (ht : step s = .next t) : t.InputFrom q := by
  obtain ⟨hpos, hfirst⟩ := h
  obtain ⟨-, hinput, -⟩ := stepKeepsParameters s t ht
  refine ⟨?_, hinput.symm ▸ hfirst⟩
  obtain rfl | ⟨-, heffect⟩ := step_eq_or_effect ht
  · exact hpos
  · exact heffect.inPos_le hpos

end State.InputFrom

/-- Over any number of steps the values at the port stay the first values of `IN`. -/
theorem runSteps_inputFrom (q : InputSeq) (n : Nat) (s t : State) (h : s.InputFrom q) (ht : runSteps q n s = .next t) :
    t.InputFrom q := by
  induction n generalizing s with
  | zero => exact Host.Outcome.next.inj ht ▸ h
  | succ n ih =>
    rw [runSteps] at ht
    cases hstep : runStep q s with
    | next u =>
      rw [hstep] at ht
      exact ih u (h.feed.of_step hstep) ht
    | fault | refused =>
      rw [hstep] at ht
      cases ht

section RunReadr

variable {q : InputSeq} {s : State} {w : Word} {r : RegField} {a : RegIdx} (h : s.InputFrom q) (hf : Fetches s w)
  (hd : decode s.opMap w = .instr (.readr r)) (ha : Names r a)
include h hf hd ha

/-- A run takes the value of `IN` at `in_pos`, whether it stands at the port or the console gives it now. -/
theorem takesInput_runStep {v : Word} (hq : q.get? s.inPos = some v) : TakesInput s a v (runStep q s) := by
  rw [runStep]
  cases hnext : s.nextInput with
  | some x =>
    obtain rfl : x = v := Option.some.inj ((h.get?_eq hnext).symm.trans hq)
    have hidle : s.awaitsInput = false := by
      rw [Bool.eq_false_iff, ne_eq, awaitsInput_of_fetches hf hd ha, hnext]
      exact Option.some_ne_none x
    rw [State.feed_idle q s hidle, hf.step_eq_exec hd]
    exact takesInput_readr ha hnext
  | none =>
    rw [State.feed_awaits q s ((awaitsInput_of_fetches hf hd ha).mpr hnext) hq]
    exact takesInput_step_deliver hf hd ha (h.inPos_eq hnext) v

/-- Past the end of `IN` a run waits. -/
theorem runStep_exhausted (hq : q.get? s.inPos = none) : runStep q s = .next s := by
  have hnone : s.nextInput = none := by
    rw [Option.eq_none_iff_forall_ne_some]
    intro x hx
    exact Option.some_ne_none x ((h.get?_eq hx).symm.trans hq)
  rw [runStep, State.feed_exhausted q s hq, hf.step_eq_exec hd]
  exact exec_readr_of_exhausted ha hnone

end RunReadr

/-- Settles O58: the start has taken nothing, the values at the port stay the first of `IN`, and a fetched `readr` takes the next value or
waits. -/
theorem runTakesInputInOrder : Obligations.RunTakesInputInOrder := by
  unfold Obligations.RunTakesInputInOrder
  refine ⟨fun a => ⟨rfl, Nat.le_refl 0, fun k v hv => ?_⟩, runSteps_inputFrom, fun q s hidle => ?_,
    fun q s w r k h hf hd ha => ⟨?_, ?_, ?_⟩⟩
  · cases hv
  · rw [runStep, State.feed_idle q s hidle]
  · exact fun v hq => takesInput_runStep h hf hd ha hq
  · exact runStep_exhausted h hf hd ha
  · rintro f rfl
    exact takesInput_runStep h hf hd ha rfl

end Sys2Proof.Machine
end
